-- ==== Sys2Proof/Word.lean ====
section
/-! DEFINITION. The words FDET's rules speak of (spec/00_scope.md R8, R9): bytes, `u32` words and the input vector. -/

namespace Sys2Proof

/-- A stream byte (10 R26). -/
abbrev Byte := BitVec 8

/-- A `u32`: `seen`, `declared` and a descriptor (00 R6 `CNT_W`, `DESC_W`; R9). Its `+` and `-` are modulo 2^32. -/
abbrev Word := BitVec 32

/-- The sampled inputs of one cycle, `{rst, flush, in_valid, in_byte}` (30 R70). -/
abbrev InputVec := BitVec 11

end Sys2Proof
end

