-- ==== Sys2Proof/Config.lean ====
section
/-! DEFINITION. The elaboration parameters of an FDET system (spec/00_scope.md R6, 10_state.md R29, 43_environment.md
R191, R196, R207) and the model's free values. All but the free values are plain data, so State can hold them. -/

namespace Sys2Proof

/-- `SYNC_QUAL` (00 R6): whether a sync must lie inside the current sync-search phase (40 R106). -/
inductive SyncQual where
  | qualified
  | literal
  deriving DecidableEq, Repr

/-- The arguments of the `GENERIC` policy (41 R140 to R142) as plain data: `detectSync : Byte^S → Bool` by the list of the
S-byte strings it accepts, `decodeBodyLength : Byte^H → u32` by a table of H-byte strings over a default. Every function
of those two types has such a table (log 4). Strings are written newest byte first, as `view` is. -/
structure GenericPolicy where
  s             : Nat
  h             : Nat
  syncs         : List (List Byte)
  lengths       : List (List Byte × Word)
  lengthDefault : Word
  deriving DecidableEq, Repr

/-- `POLICY` (00 R6, 41 R140). -/
inductive Policy where
  | a
  | b
  | generic (g : GenericPolicy)
  deriving DecidableEq, Repr

/-- `S`, `syncLength` (41 R143, R147). -/
def Policy.S : Policy → Nat
  | .a => 2
  | .b => 2
  | .generic g => g.s

/-- `H`, `headerLength` (41 R143, R147). -/
def Policy.H : Policy → Nat
  | .a => 6
  | .b => 3
  | .generic g => g.h

/-- The parameters of one system, fixed for its life (00 R6, 43 R207). The consumer's timeout has no value in the model:
it is a draw (43 R197; log 3). -/
structure Config where
  policy       : Policy
  syncQual     : SyncQual
  /-- whether storage is bound to the ByteChannel (43 R207: null storage is a configuration error) -/
  storageBound : Bool
  /-- `C`, the ByteChannel's capacity in bytes (43 R191) -/
  capacity     : Nat
  /-- `QD`, the DescriptorChannel's depth (43 R196) -/
  queueDepth   : Nat
  deriving DecidableEq, Repr

/-- `S` of a system (10 R29). -/
abbrev Config.S (c : Config) : Nat := c.policy.S

/-- `H` of a system (10 R29). -/
abbrev Config.H (c : Config) : Nat := c.policy.H

/-- `WIN_D`, the depth of the stored window, H - 1 (00 R6). -/
abbrev Config.winDepth (c : Config) : Nat := c.policy.H - 1

/-- The system State.reset stands for. DESIGN CHOICE (log 1): the spec leaves `POLICY` and `C` to the instance; this one
is Policy A with R252's least capacity, and the spec's defaults `QUALIFIED` and 10. -/
def Config.default : Config where
  policy       := .a
  syncQual     := .qualified
  storageBound := true
  capacity     := 131072
  queueDepth   := 10

/-- FREE VALUE (43 R195, 93 I9; log 11): what the storage cell at an address holds after the ByteChannel's reset number
`epoch`, before anything is appended there: "The contents of `mem` are not specified afterwards". -/
opaque Config.unspecifiedByte (epoch address : Nat) : Byte

end Sys2Proof
end

