-- ==== Sys2Proof/Syntax.lean ====
section
/-! DEFINITION. The operations of one clock cycle (spec/30_encoding.md R74, R75; opcode_table.json) and the phase that
splits PUSH into its branches (10_state.md R21). -/

namespace Sys2Proof

/-- The framing phase (10 R21, 30 R72). -/
inductive Phase where
  /-- LookingForSync -/
  | lfs
  /-- WaitingForHeader -/
  | wfh
  /-- WaitingForBody -/
  | wfb
  /-- 0b11, reserved and unreachable from reset -/
  | rsv
  deriving DecidableEq, Repr

/-- One constructor per row of the opcode table. PUSH's byte is its operand (30 R71); the bits an operation ignores are
kept as they were sampled, so that no bit of a vector is lost in decoding (log 9). -/
inductive Instr where
  /-- RESET (40 R101); ignores `flush`, `in_valid` and `in_byte` -/
  | reset (flush inValid : Bool) (byte : Byte)
  /-- FLUSH (40 R102); ignores `in_valid` and `in_byte` -/
  | flush (inValid : Bool) (byte : Byte)
  /-- PUSH in phase LFS (40 R105 to R109) -/
  | pushLfs (b : Byte)
  /-- PUSH in phase WFH (40 R111, R112) -/
  | pushWfh (b : Byte)
  /-- PUSH in phase WFB (40 R113, R114) -/
  | pushWfb (b : Byte)
  /-- PUSH in the reserved phase (40 R115) -/
  | pushRsv (b : Byte)
  /-- IDLE (40 R103); ignores `in_byte` -/
  | idle (byte : Byte)
  deriving DecidableEq, Repr

end Sys2Proof
end

