-- ==== Sys2Proof/WellFormed.lean ====
section
/-! DEFINITION. What is well formed: an operation in a phase (the opcode table's state guard, spec/30_encoding.md R75)
and a configuration (00_scope.md R7, 43_environment.md R196, R207). -/

namespace Sys2Proof

/-- The state guard of an operation's opcode-table row: a PUSH branch belongs to its phase, the rest to any (30 R75). -/
def Instr.wfIn (p : Phase) : Instr → Bool
  | .reset _ _ _ => true
  | .flush _ _   => true
  | .pushLfs _   => p == .lfs
  | .pushWfh _   => p == .wfh
  | .pushWfb _   => p == .wfb
  | .pushRsv _   => p == .rsv
  | .idle _      => true

/-- The conditions of 00 R7, named so that a fault can record the one that fails (60 R221, code 2). -/
inductive ConfigCondition where
  /-- 1 <= S -/
  | syncLengthPositive
  /-- S < H -/
  | syncShorterThanHeader
  /-- H <= 64 -/
  | headerAtMost64
  /-- GENERIC's sync strings have S bytes: its `detectSync` is a function of S bytes (41 R141) -/
  | genericSyncsHaveS
  /-- GENERIC's table rows have H bytes: its `decodeBodyLength` is a function of H bytes (41 R142) -/
  | genericRowsHaveH
  /-- GENERIC's lengths are in H + 1 .. 2^31 - 1 (41 R142) -/
  | genericLengthsInRange
  deriving DecidableEq, Repr

/-- A length the policy contract allows: H < result <= 2^31 - 1 (41 R142). -/
def lengthInContract (h : Nat) (w : Word) : Bool := decide (h < w.toNat) && decide (w.toNat ≤ 2 ^ 31 - 1)

/-- Whether a policy meets one condition of 00 R7. The reference policies meet GENERIC's by 41 R145, R150.
That every row of a GENERIC table is held to the contract, a shadowed one too, is log 4. -/
def Policy.meets (p : Policy) : ConfigCondition → Bool
  | .syncLengthPositive    => decide (1 ≤ p.S)
  | .syncShorterThanHeader => decide (p.S < p.H)
  | .headerAtMost64        => decide (p.H ≤ 64)
  | .genericSyncsHaveS     =>
    match p with
    | .generic g => g.syncs.all fun k => k.length == g.s
    | _ => true
  | .genericRowsHaveH      =>
    match p with
    | .generic g => g.lengths.all fun r => r.1.length == g.h
    | _ => true
  | .genericLengthsInRange =>
    match p with
    | .generic g => lengthInContract g.h g.lengthDefault && g.lengths.all fun r => lengthInContract g.h r.2
    | _ => true

/-- The conditions of 00 R7, in the order a refusal looks for the first that fails (log 5). -/
def ConfigCondition.all : List ConfigCondition :=
  [.syncLengthPositive, .syncShorterThanHeader, .headerAtMost64, .genericSyncsHaveS, .genericRowsHaveH,
    .genericLengthsInRange]

/-- The first condition of 00 R7 a policy fails, if any. -/
def Policy.firstFailure (p : Policy) : Option ConfigCondition := ConfigCondition.all.find? fun c => !p.meets c

/-- Legal FDET parameters (00 R7). -/
def Policy.legal (p : Policy) : Bool := ConfigCondition.all.all p.meets

/-- "C must be a power of two" (43 R191, R207). -/
def isPowerOfTwo (c : Nat) : Bool := c == 2 ^ c.log2

/-- The environment is configured (43 R207): storage is bound and its size is a power of two. -/
def Config.envLegal (c : Config) : Bool := c.storageBound && isPowerOfTwo c.capacity

/-- A configuration that has runs: 00 R7, 43 R207, and a positive queue depth (43 R196). -/
def Config.legal (c : Config) : Bool := c.policy.legal && c.envLegal && decide (0 < c.queueDepth)

end Sys2Proof
end

