-- ==== Sys2Proof/Decode.lean ====
section
/-! DEFINITION. The input vector's format and decode (spec/30_encoding.md R70 to R76), the phase encoding (R72), and the
encoder. Decoding is total: every vector has an operation, and a word that is no 11-bit vector is rejected by name. -/

namespace Sys2Proof

/-- `phase_o`'s value for each phase (30 R72). -/
def Phase.toBits : Phase → BitVec 2
  | .lfs => 0b00#2
  | .wfh => 0b01#2
  | .wfb => 0b10#2
  | .rsv => 0b11#2

/-- The phase a 2-bit value names (30 R72). -/
def Phase.ofBits (v : BitVec 2) : Phase :=
  if v = 0b00#2 then .lfs else if v = 0b01#2 then .wfh else if v = 0b10#2 then .wfb else .rsv

/-- `iv[10]` (30 R70). -/
def ivRst (iv : InputVec) : Bool := iv.getLsbD 10

/-- `iv[9]` (30 R70). -/
def ivFlush (iv : InputVec) : Bool := iv.getLsbD 9

/-- `iv[8]` (30 R70). -/
def ivValid (iv : InputVec) : Bool := iv.getLsbD 8

/-- `iv[7:0]` (30 R70, R71). -/
def ivByte (iv : InputVec) : Byte := iv.extractLsb' 0 8

/-- `{rst, flush, in_valid, in_byte}` (30 R70; concatenation as in 00 R8). -/
def inputVector (rst flush valid : Bool) (b : Byte) : InputVec :=
  BitVec.ofBool rst ++ BitVec.ofBool flush ++ BitVec.ofBool valid ++ b

/-- The branch of a PUSH: "The dispatch is on state, not on any input bit" (30 R75). -/
def pushBranch (p : Phase) (b : Byte) : Instr :=
  match p with
  | .lfs => .pushLfs b
  | .wfh => .pushWfh b
  | .wfb => .pushWfb b
  | .rsv => .pushRsv b

/-- The operation of a cycle: "RESET over FLUSH, FLUSH over PUSH, PUSH over IDLE" (30 R74), with PUSH's branch (R75). -/
def decode (p : Phase) (iv : InputVec) : Instr :=
  if ivRst iv then .reset (ivFlush iv) (ivValid iv) (ivByte iv)
  else if ivFlush iv then .flush (ivValid iv) (ivByte iv)
  else if ivValid iv then pushBranch p (ivByte iv)
  else .idle (ivByte iv)

/-- The input vector of an operation (30 R70, R74). -/
def encode : Instr → InputVec
  | .reset f v b => inputVector true f v b
  | .flush v b   => inputVector false true v b
  | .pushLfs b   => inputVector false false true b
  | .pushWfh b   => inputVector false false true b
  | .pushWfb b   => inputVector false false true b
  | .pushRsv b   => inputVector false false true b
  | .idle b      => inputVector false false false b

/-- The four operations of 30 R74's table. -/
inductive Operation where
  | reset
  | flush
  | push
  | idle
  deriving DecidableEq, Repr

/-- A row of 30 R74's table: a vector belongs to it when its bits under `mask` are `value`. -/
structure OpRow where
  op    : Operation
  value : InputVec
  mask  : InputVec
  deriving DecidableEq, Repr

/-- 30 R74's table, row for row. -/
def opTable : List OpRow :=
  [⟨.reset, 0x400#11, 0x400#11⟩, ⟨.flush, 0x200#11, 0x600#11⟩, ⟨.push, 0x100#11, 0x700#11⟩, ⟨.idle, 0x000#11, 0x700#11⟩]

/-- Whether a row of the table matches a vector. -/
def OpRow.matchesVec (r : OpRow) (iv : InputVec) : Bool := iv &&& r.mask == r.value

/-- The operation an opcode-table row stands for (30 R74, R75). -/
def Instr.operation : Instr → Operation
  | .reset _ _ _ => .reset
  | .flush _ _   => .flush
  | .pushLfs _   => .push
  | .pushWfh _   => .push
  | .pushWfb _   => .push
  | .pushRsv _   => .push
  | .idle _      => .idle

/-- Why a word is not decoded. No vector is illegal (30 R76), so a word is rejected only when it is no vector. -/
inductive DecodeError where
  /-- a bit above bit 10 is set: not an 11-bit input vector (30 R70; log 14) -/
  | notAnInputVector
  deriving DecidableEq, Repr

/-- Decode a word of any size, in a phase. -/
def decodeWord (p : Phase) (w : Nat) : Except DecodeError Instr :=
  if w < 2 ^ 11 then .ok (decode p (BitVec.ofNat 11 w)) else .error .notAnInputVector

/-- The instruction a table word stands for, PUSH's branch being that of phase LFS, the phase after reset (log 7). The bits
of the word are the low `nbits` of `w`. -/
def decodeTableWord (nbits w : Nat) : Option Instr :=
  match decodeWord .lfs (w % 2 ^ nbits) with
  | .ok i => some i
  | .error _ => none

end Sys2Proof
end

