-- ==== Sys2Proof/Machine/State.lean ====
section
/-! DEFINITION. The machine's state: FDET's four registers (spec/10_state.md R20), the environment's two stores and the
consumer (43_environment.md R190), the parameters (10 R29), and what is still to happen (notes 2 and 3). -/

namespace Sys2Proof.Machine

/-- "FDET's entire state is four registers" (10 R20). -/
structure Fdet where
  /-- 10 R21 -/
  phase    : Phase
  /-- `bytesSeenInPhase`, 10 R22 -/
  seen     : Word
  /-- `declaredBodyLength`, 10 R23 -/
  declared : Word
  /-- the look-back window, newest byte first, 10 R24 -/
  win      : List Byte
  deriving DecidableEq, Repr

/-- Byte storage: address and byte, addresses strictly rising; an unlisted address has no specified content (log 11). -/
abbrev Memory := List Host.Cell

/-- The canonical form of a Memory. -/
abbrev Memory.wf (m : Memory) : Prop := m.Pairwise fun x y => x.1 < y.1

/-- The ByteChannel `BC` (43 R191). -/
structure ByteChannel where
  mem   : Memory
  /-- the write cursor, an unbounded natural -/
  wr    : Nat
  /-- the read cursor, an unbounded natural -/
  rd    : Nat
  /-- the model's own count of resets; it only picks a fresh free value for unspecified contents (log 11) -/
  epoch : Nat
  deriving DecidableEq, Repr

/-- The consumer's place in the loop of `next` (43 R201), cut at its critical sections (43 R206). -/
inductive Reader where
  /-- between two calls of `next` -/
  | idle
  /-- in `next(cap)`, about to dequeue -/
  | waiting (cap : Nat)
  /-- in `next(cap)`, with the dequeued descriptor, about to discard or to read -/
  | holding (cap : Nat) (d : Word)
  deriving DecidableEq, Repr

/-- One entry of the schedule (logs 2 and 3). -/
inductive Turn where
  /-- a clock cycle with these sampled inputs (10 R26) -/
  | clock (iv : InputVec)
  /-- a critical section of the consumer; `late` is the draw of 43 R197: has the deadline passed? -/
  | consumer (late : Bool)
  deriving DecidableEq, Repr

/-- The whole machine. -/
structure State where
  /-- the parameters, fixed for the life of the machine (00 R6, 43 R207) -/
  cfg   : Config
  fdet  : Fdet
  /-- the descriptor driven in the latest clock cycle, none when `desc_valid` was 0 (10 R27; log 10) -/
  out   : Option Word
  bc    : ByteChannel
  /-- the DescriptorChannel `DQ`, head first (43 R196) -/
  dq    : List Word
  reader : Reader
  /-- the `cap` of every call of `next` still to be made, oldest first (log 3) -/
  calls : List Nat
  /-- what the latest completed call of `next` returned (43 R201) -/
  ret   : Option Nat
  /-- the bytes the latest delivery wrote at offsets 0 .. d-1 of its caller's buffer (43 R203; log 13) -/
  buf   : List Byte
  /-- the schedule, next turn first (log 2) -/
  turns : List Turn
  deriving DecidableEq, Repr

/-- The model faults of 60 R221. Each stops the machine for good. -/
inductive Fault where
  /-- Code 1: a PUSH in phase 0b11 (40 R115), with the cycle's input vector. Raised by PUSH.RSV. Safe: the spec gives the
  push no effect, and no run from reset reaches it. -/
  | reservedPhase (iv : InputVec)
  /-- Code 2: a condition of 00 R7 fails. Raised by every step of a machine so configured. Safe: "It has no run". -/
  | configRefused (failing : ConfigCondition)
  /-- Code 3: a read or discard beyond the unread count (43 R205). Raised by the consumer. Safe: the source gives it no
  meaning. -/
  | envUnderrun (requested unread : Nat)
  /-- Code 4: null storage, or a C that is no power of two (43 R207), with the value of C. Raised by every step of a
  machine so configured. Safe: "Such a system has no run". -/
  | envConfig (capacity : Nat)
  deriving DecidableEq, Repr

/-- The code of a fault (60 R221). -/
def Fault.code : Fault → Nat
  | .reservedPhase _ => 1
  | .configRefused _ => 2
  | .envUnderrun _ _ => 3
  | .envConfig _     => 4

/-- What the model does not run. -/
inductive Refusal where
  /-- An operation without a meaning yet. Raised by `exec`'s arms. Safe. -/
  | notModelled (mnemonic : String)
  /-- QD = 0, which 43 R196 excludes ("a positive integer") without naming a fault. Raised by every step of a machine so
  configured. Safe (log 6). -/
  | queueDepthZero
  deriving DecidableEq, Repr

/-- FDET's registers after RESET or FLUSH (10 R31) for a window of `depth` bytes (log 20). -/
def Fdet.atReset (depth : Nat) : Fdet where
  phase    := .lfs
  seen     := 0
  declared := 0
  win      := List.replicate depth 0x00#8

/-- The ByteChannel after configuration (43 R191): both cursors 0, contents not specified. -/
def ByteChannel.empty (epoch : Nat) : ByteChannel where
  mem   := []
  wr    := 0
  rd    := 0
  epoch := epoch

/-- The launch premise of a run (70 R244) for a configuration, with nothing scheduled. The consumer's fields have no reset
value in the spec (DESIGN CHOICE, log 12). -/
def State.launch (cfg : Config) : State where
  cfg    := cfg
  fdet   := Fdet.atReset cfg.winDepth
  out    := none
  bc     := ByteChannel.empty 0
  dq     := []
  reader := .idle
  calls  := []
  ret    := none
  buf    := []
  turns  := []

/-- The machine right after reset (70 R240, R244). -/
def State.reset : State := State.launch Config.default

end Sys2Proof.Machine
end

