-- ==== Sys2Proof/Machine/Descriptor.lean ====
section
/-! DEFINITION. Descriptor words and the descriptor output (spec/42_descriptor.md, 30_encoding.md R73, R77, 00_scope.md
R9). -/

namespace Sys2Proof.Machine

/-- `neg32(x) = (2^32 - x) mod 2^32` (00 R9). -/
def neg32 (x : Word) : Word := BitVec.ofNat 32 (2 ^ 32 - x.toNat)

/-- `as_i32(x)`: the pattern read as a two's-complement integer (00 R9). -/
def asI32 (x : Word) : Int := x.toInt

/-- The discard descriptor of a noise count (42 R172, R175). -/
def discardDescriptor (noise : Word) : Word := neg32 noise

/-- The message descriptor of a frame length (42 R173). -/
def messageDescriptor (declared : Word) : Word := declared

/-- What a descriptor word means to its consumer (30 R73). -/
inductive DescriptorMeaning where
  /-- this many bytes form a complete frame -/
  | message (bytes : Nat)
  /-- discard this many bytes -/
  | discard (bytes : Nat)
  /-- 0, never emitted -/
  | invalid
  deriving DecidableEq, Repr

/-- 30 R73's table. -/
def descriptorMeaning (d : Word) : DescriptorMeaning :=
  if asI32 d > 0 then .message (asI32 d).natAbs
  else if asI32 d < 0 then .discard (asI32 d).natAbs
  else .invalid

/-- The port `desc_valid` for a cycle's `out` (42 R170). -/
def descValid (out : Option Word) : Bool := out.isSome

/-- The port `desc` for a cycle's `out`: 0x00000000 when nothing is emitted (42 R170, 30 R77). -/
def descWord (out : Option Word) : Word := out.getD 0x00000000#32

end Sys2Proof.Machine
end

