-- ==== Sys2Proof/Machine/Operands.lean ====
section
/-! DEFINITION. The operand of a PUSH and the bytes the policy reads with it (spec/30_encoding.md R71, 20_memory.md R51,
R54). -/

namespace Sys2Proof.Machine

/-- The effective view of a PUSH cycle: the byte just pushed, then the stored window (20 R51). -/
def effectiveView (win : List Byte) (b : Byte) : List Byte := b :: win

/-- `view[i]`. Every position a policy reads exists when the window has H - 1 bytes; beyond the window it reads as the
fill 0x00 (log 15). -/
def viewAt (view : List Byte) (i : Nat) : Byte := view.getD i 0x00#8

/-- `view[0..n-1]`, newest first: "only the last syncLength/headerLength bytes are ever inspected" (20 R54). -/
def newestBytes (view : List Byte) (n : Nat) : List Byte := (List.range n).map (viewAt view)

end Sys2Proof.Machine
end

