-- ==== Sys2Proof/Machine/Policy.lean ====
section
/-! DEFINITION. The sync pattern matcher and the length-field decoder (spec/41_policy.md). Both are pure functions of the
effective view (41 R141, R142, R152). -/

namespace Sys2Proof.Machine

/-- Policy A's sync: 0xB5 then 0x62 (41 R144). -/
def detectSyncA (view : List Byte) : Bool := viewAt view 1 == 0xB5#8 && viewAt view 0 == 0x62#8

/-- Policy A's length: the last two header bytes, the older one low, plus 8 (41 R145). -/
def decodeBodyLengthA (view : List Byte) : Word :=
  let len16 : BitVec 16 := viewAt view 0 ++ viewAt view 1
  len16.zeroExtend 32 + 8#32

/-- Policy B's sync: 0xD3, then a byte whose high six bits are 0 (41 R148). -/
def detectSyncB (view : List Byte) : Bool := viewAt view 1 == 0xD3#8 && (viewAt view 0 &&& 0xFC#8) == 0x00#8

/-- Policy B's length: the last header byte plus 6 (41 R150). -/
def decodeBodyLengthB (view : List Byte) : Word := (viewAt view 0).zeroExtend 32 + 6#32

/-- GENERIC's sync matcher: its function of the newest S bytes (41 R141; log 4). -/
def detectSyncGeneric (g : GenericPolicy) (view : List Byte) : Bool := g.syncs.contains (newestBytes view g.s)

/-- GENERIC's length decoder: its function of the newest H bytes (41 R142; log 4). -/
def decodeBodyLengthGeneric (g : GenericPolicy) (view : List Byte) : Word :=
  (g.lengths.lookup (newestBytes view g.h)).getD g.lengthDefault

/-- `detectSync` of a policy (41 R140, R141). -/
def detectSync (p : Policy) (view : List Byte) : Bool :=
  match p with
  | .a => detectSyncA view
  | .b => detectSyncB view
  | .generic g => detectSyncGeneric g view

/-- `decodeBodyLength` of a policy (41 R140, R142). -/
def decodeBodyLength (p : Policy) (view : List Byte) : Word :=
  match p with
  | .a => decodeBodyLengthA view
  | .b => decodeBodyLengthB view
  | .generic g => decodeBodyLengthGeneric g view

end Sys2Proof.Machine
end

