-- ==== Sys2Proof/Machine/Flags.lean ====
section
/-! DEFINITION. FDET has no condition flags (spec/10_state.md R25). What a PUSH decides on are the conditions of its cycle,
all of them here: the new count, the sync decision, the noise count and the two completions (40_sequencer.md R104 to R114). -/

namespace Sys2Proof.Machine

/-- `n = seen + 1`, modulo 2^32: "Increment bytesSeenInPhase first" (40 R104). -/
def nextCount (f : Fdet) : Word := f.seen + 1#32

/-- `S` as a u32 operand. -/
def syncLengthWord (cfg : Config) : Word := BitVec.ofNat 32 cfg.S

/-- `H` as a u32 operand. -/
def headerLengthWord (cfg : Config) : Word := BitVec.ofNat 32 cfg.H

/-- `match` of 40 R106. -/
def syncMatch (cfg : Config) (f : Fdet) (b : Byte) : Bool := detectSync cfg.policy (effectiveView f.win b)

/-- `hit = match and (SYNC_QUAL == LITERAL or n >= S)`, n unsigned (40 R106). -/
def syncHit (cfg : Config) (f : Fdet) (b : Byte) : Bool :=
  syncMatch cfg f b && (cfg.syncQual == .literal || decide (syncLengthWord cfg ≤ nextCount f))

/-- `noise = n - S`, modulo 2^32 (40 R107). -/
def noiseCount (cfg : Config) (f : Fdet) : Word := nextCount f - syncLengthWord cfg

/-- The header completes with this byte: n = H (40 R112). -/
def headerComplete (cfg : Config) (f : Fdet) : Bool := nextCount f == headerLengthWord cfg

/-- The frame completes with this byte: n = declared (40 R114). -/
def frameComplete (f : Fdet) : Bool := nextCount f == f.declared

end Sys2Proof.Machine
end

