-- ==== Sys2Proof/Machine/Ops.lean ====
section
/-! DEFINITION. The shared operations on the stores: byte storage, the look-back window (spec/20_memory.md R52, R53), the
ByteChannel and the DescriptorChannel (43_environment.md R191 to R198), the system's atomic cycle actions (43 R199, R200)
and the one fault a cycle can raise (60_exceptions.md R221). FDET takes no exception and returns from none (60 R225). -/

namespace Sys2Proof.Machine

/-! ## Byte storage -/

/-- The byte listed at an address; none where the content is not specified (log 11). -/
def Memory.read? (m : Memory) (address : Nat) : Option Byte :=
  match m with
  | [] => none
  | (a, v) :: rest => if a = address then some v else Memory.read? rest address

/-- Store a byte, keeping the addresses strictly rising. -/
def Memory.write (m : Memory) (address : Nat) (b : Byte) : Memory :=
  match m with
  | [] => [(address, b)]
  | (a, v) :: rest =>
    if address < a then (address, b) :: (a, v) :: rest
    else if address = a then (address, b) :: rest
    else (a, v) :: Memory.write rest address b

/-! ## The look-back window -/

/-- The shift of a PUSH: `win[0] <- in_byte; win[i] <- win[i-1]`, the oldest byte lost (20 R52). -/
def shiftWindow (depth : Nat) (win : List Byte) (b : Byte) : List Byte := (b :: win).take depth

/-! ## The ByteChannel -/

/-- "Storage is addressed as `mem[cursor & (C - 1)]`" (43 R191). -/
def storageIndex (capacity cursor : Nat) : Nat := cursor &&& (capacity - 1)

/-- The unread count `BC.wr - BC.rd` (43 R191; log 16). -/
def ByteChannel.unread (ch : ByteChannel) : Nat := ch.wr - ch.rd

/-- `BC.append(b)`, overwrite on full (43 R192). -/
def ByteChannel.append (capacity : Nat) (ch : ByteChannel) (b : Byte) : ByteChannel where
  mem   := ch.mem.write (storageIndex capacity ch.wr) b
  wr    := ch.wr + 1
  rd    := if ch.wr + 1 - ch.rd > capacity then ch.wr + 1 - capacity else ch.rd
  epoch := ch.epoch

/-- The byte of storage a cursor names; a free value where no append since the last reset reached (43 R195; log 11). -/
def ByteChannel.byteAt (capacity : Nat) (ch : ByteChannel) (cursor : Nat) : Byte :=
  (ch.mem.read? (storageIndex capacity cursor)).getD (Config.unspecifiedByte ch.epoch (storageIndex capacity cursor))

/-- The n bytes from a cursor on, oldest first. -/
def ByteChannel.bytesFrom (capacity : Nat) (ch : ByteChannel) (cursor : Nat) : Nat → List Byte
  | 0 => []
  | n + 1 => ch.byteAt capacity cursor :: ch.bytesFrom capacity (cursor + 1) n

/-- The unread bytes, oldest first. -/
def ByteChannel.contents (capacity : Nat) (ch : ByteChannel) : List Byte := ch.bytesFrom capacity ch.rd ch.unread

/-- `BC.rd <- BC.rd + n`, the cursor's move in `BC.read` and `BC.discard` (43 R193, R194). -/
def ByteChannel.advance (ch : ByteChannel) (n : Nat) : ByteChannel := { ch with rd := ch.rd + n }

/-- `BC.reset()`: both cursors 0, the storage no longer specified (43 R195). -/
def ByteChannel.reset (ch : ByteChannel) : ByteChannel := ByteChannel.empty (ch.epoch + 1)

/-! ## The DescriptorChannel -/

/-- `DQ.enqueue(d)`: appended when there is room, dropped silently otherwise (43 R196). -/
def enqueue (depth : Nat) (dq : List Word) (d : Word) : List Word := if dq.length < depth then dq ++ [d] else dq

/-- What a cycle's `out` does to DQ (43 R199). -/
def offer (depth : Nat) (dq : List Word) (out : Option Word) : List Word :=
  match out with
  | none => dq
  | some d => enqueue depth dq d

/-! ## The system's cycle actions -/

/-- System PUSH: the append, FDET's state update and the enqueue, at one edge (43 R199). -/
def systemPush (b : Byte) (update : Fdet × Option Word) (s : State) : State :=
  { s with
    fdet := update.1
    out  := update.2
    bc   := s.bc.append s.cfg.capacity b
    dq   := offer s.cfg.queueDepth s.dq update.2 }

/-- System RESET and FLUSH: `DQ.clear()`, `BC.reset()` and FDET's reset values, at one edge; a byte presented in the cycle
is neither appended nor pushed (43 R200, 10 R31). The consumer stands where it stood (log 12). -/
def systemClear (s : State) : State :=
  { s with
    fdet := Fdet.atReset s.cfg.winDepth
    out  := none
    bc   := s.bc.reset
    dq   := [] }

/-- A clock cycle in which nothing happens (40 R103). -/
def systemIdle (s : State) : State := { s with out := none }

/-- `raise ModelFault(reason)` (00 R10, 60 R221): no state is written and the machine stops. -/
def raiseModelFault (f : Fault) : Host.Outcome State Fault Refusal := .fault f

end Sys2Proof.Machine
end

