-- ==== Sys2Proof/Machine/Consumer.lean ====
section
/-! DEFINITION. The MessageReader (spec/43_environment.md R197, R201 to R206): the loop of `next(cap)`, one critical section
a turn. -/

namespace Sys2Proof.Machine

/-- "When `d < 0`, or when `d > cap`, the consumer discards" (43 R202). -/
def discards (cap : Nat) (d : Word) : Bool := decide (asI32 d < 0) || decide (asI32 d > (cap : Int))

/-- `|d|`, the number of bytes a descriptor counts (43 R202, 90 C10). -/
def descriptorBytes (d : Word) : Nat := (asI32 d).natAbs

/-- The critical section after a dequeue: discard and loop (43 R202), or deliver and return (43 R203), or the underrun of
43 R205. A descriptor 0, which FDET never emits (42 R174), is delivered as 0 bytes (log 17). -/
def finishDescriptor (cap : Nat) (d : Word) (s : State) : Host.Outcome State Fault Refusal :=
  if s.bc.unread < descriptorBytes d then .fault (.envUnderrun (descriptorBytes d) s.bc.unread)
  else if discards cap d then .next { s with bc := s.bc.advance (descriptorBytes d), reader := .waiting cap }
  else .next { s with
    bc     := s.bc.advance (descriptorBytes d)
    reader := .idle
    ret    := some (descriptorBytes d)
    buf    := s.bc.bytesFrom s.cfg.capacity s.bc.rd (descriptorBytes d) }

/-- `DQ.dequeue(deadline)`: the head if there is one, else a draw between waiting on and `timeout` (43 R197), which makes
`next` return 0 (43 R204). -/
def dequeueOrTimeout (late : Bool) (cap : Nat) (s : State) : Host.Outcome State Fault Refusal :=
  match s.dq with
  | d :: rest => .next { s with dq := rest, reader := .holding cap d }
  | [] => .next (if late then { s with reader := .idle, ret := some 0 } else s)

/-- Between calls: enter the next call of `next`, if the consumer has one to make (log 3). -/
def enterNext (s : State) : Host.Outcome State Fault Refusal :=
  match s.calls with
  | cap :: rest => .next { s with calls := rest, reader := .waiting cap }
  | [] => .next s

/-- One turn of the consumer (43 R201, R206). -/
def consumerTurn (late : Bool) (s : State) : Host.Outcome State Fault Refusal :=
  match s.reader with
  | .idle => enterNext s
  | .waiting cap => dequeueOrTimeout late cap s
  | .holding cap d => finishDescriptor cap d s

end Sys2Proof.Machine
end

