-- ==== Sys2Proof/Machine/Control.lean ====
section
/-! DEFINITION. RESET, FLUSH and IDLE (spec/40_sequencer.md R101 to R103; 43_environment.md R200). The sampled bits they
ignore have no effect (30_encoding.md R71). -/

namespace Sys2Proof.Machine

/-- RESET: legal in every state (40 R101, 43 R200). -/
def execReset (_flush _inValid : Bool) (_byte : Byte) (s : State) : Host.Outcome State Fault Refusal :=
  .next (systemClear s)

/-- FLUSH: a presented byte is dropped (40 R102, 43 R200). -/
def execFlush (_inValid : Bool) (_byte : Byte) (s : State) : Host.Outcome State Fault Refusal := .next (systemClear s)

/-- IDLE: "No state changes" (40 R103). -/
def execIdle (_byte : Byte) (s : State) : Host.Outcome State Fault Refusal := .next (systemIdle s)

end Sys2Proof.Machine
end

