-- ==== Sys2Proof/Machine/Push.lean ====
section
/-! DEFINITION. The PUSH family (spec/40_sequencer.md R104 to R115). A branch is FDET's part, a function of the parameters,
the registers and the byte that gives the new registers and the cycle's descriptor (00 R11); the meaning of the operation
is that branch within the system's atomic PUSH (43_environment.md R199). The window shifts in every branch (R104).
Which branch runs is the decoder's choice by phase (logs 7 and 8). -/

namespace Sys2Proof.Machine

/-- PUSH.LFS (40 R105 to R110, R119). -/
def lfsBranch (cfg : Config) (f : Fdet) (b : Byte) : Fdet × Option Word :=
  let win := shiftWindow cfg.winDepth f.win b
  if syncHit cfg f b then
    ({ f with phase := .wfh, seen := syncLengthWord cfg, win := win },
      if noiseCount cfg f = 0#32 then none else some (discardDescriptor (noiseCount cfg f)))
  else ({ f with seen := nextCount f, win := win }, none)

/-- PUSH.WFH (40 R111, R112). -/
def wfhBranch (cfg : Config) (f : Fdet) (b : Byte) : Fdet × Option Word :=
  let win := shiftWindow cfg.winDepth f.win b
  if headerComplete cfg f then
    ({ phase    := .wfb
       seen     := nextCount f
       declared := decodeBodyLength cfg.policy (effectiveView f.win b)
       win      := win }, none)
  else ({ f with seen := nextCount f, win := win }, none)

/-- PUSH.WFB (40 R113, R114). -/
def wfbBranch (cfg : Config) (f : Fdet) (b : Byte) : Fdet × Option Word :=
  let win := shiftWindow cfg.winDepth f.win b
  if frameComplete f then
    ({ f with phase := .lfs, seen := 0#32, win := win }, some (messageDescriptor f.declared))
  else ({ f with seen := nextCount f, win := win }, none)

/-- PUSH in phase LFS (40 R105 to R110; 43 R199). -/
def execPushLfs (b : Byte) (s : State) : Host.Outcome State Fault Refusal :=
  .next (systemPush b (lfsBranch s.cfg s.fdet b) s)

/-- PUSH in phase WFH (40 R111, R112; 43 R199). -/
def execPushWfh (b : Byte) (s : State) : Host.Outcome State Fault Refusal :=
  .next (systemPush b (wfhBranch s.cfg s.fdet b) s)

/-- PUSH in phase WFB (40 R113, R114; 43 R199). -/
def execPushWfb (b : Byte) (s : State) : Host.Outcome State Fault Refusal :=
  .next (systemPush b (wfbBranch s.cfg s.fdet b) s)

/-- PUSH in phase 0b11: "`raise ModelFault(ReservedPhase)`. No state is written and no descriptor is emitted" (40 R115);
the fault records the cycle's input vector (60 R221). -/
def execPushRsv (b : Byte) (_s : State) : Host.Outcome State Fault Refusal :=
  raiseModelFault (.reservedPhase (encode (.pushRsv b)))

end Sys2Proof.Machine
end

