-- ==== Sys2Proof/Machine/Dispatch.lean ====
section
/-! DEFINITION. The meaning of every operation of the opcode table. -/

namespace Sys2Proof.Machine

/-- One cycle's operation on the whole system. -/
def exec (i : Instr) (s : State) : Host.Outcome State Fault Refusal :=
  match i with
  | .reset f v b => Sys2Proof.Machine.execReset f v b s
  | .flush v b => Sys2Proof.Machine.execFlush v b s
  | .pushLfs b => Sys2Proof.Machine.execPushLfs b s
  | .pushWfh b => Sys2Proof.Machine.execPushWfh b s
  | .pushWfb b => Sys2Proof.Machine.execPushWfb b s
  | .pushRsv b => Sys2Proof.Machine.execPushRsv b s
  | .idle b => Sys2Proof.Machine.execIdle b s

end Sys2Proof.Machine
end

