-- ==== Sys2Proof/Machine/Elaborate.lean ====
section
/-! DEFINITION. Elaboration and configuration (spec/00_scope.md R7, 43_environment.md R196, R207; 60_exceptions.md R221,
codes 2 and 4): what a system with illegal parameters does instead of running. -/

namespace Sys2Proof.Machine

/-- Run `k` when the configuration has runs; otherwise stop with the fault of its first failing condition, FDET's own
conditions first (70 R243; logs 5 and 6). -/
def elaborated (cfg : Config) (k : Host.Outcome State Fault Refusal) : Host.Outcome State Fault Refusal :=
  match cfg.policy.firstFailure with
  | some c => .fault (.configRefused c)
  | none =>
    if cfg.envLegal then (if 0 < cfg.queueDepth then k else .refused .queueDepthZero)
    else .fault (.envConfig cfg.capacity)

end Sys2Proof.Machine
end

