-- ==== Sys2Proof/Machine/Fetch.lean ====
section
/-! DEFINITION. Where a step takes its input from: the schedule (log 2). -/

namespace Sys2Proof.Machine

/-- The turn of a machine with nothing scheduled (log 2). Between calls the inputs are all 0: an IDLE cycle. Inside a call
no enqueue can come any more, so the consumer moves, its deadline passed: "A wait never lasts for ever: if no enqueue
comes, the dequeue returns `timeout`" (43 R197). -/
def unscheduledTurn : Reader → Turn
  | .idle        => .clock 0x000#11
  | .waiting _   => .consumer true
  | .holding _ _ => .consumer true

/-- The next turn, and the state without it in its schedule. -/
def takeTurn (s : State) : Turn × State :=
  match s.turns with
  | t :: rest => (t, { s with turns := rest })
  | [] => (unscheduledTurn s.reader, s)

/-- Schedule a clock cycle before everything else. The vector is the low 11 bits of the word (log 14). -/
def scheduleFirst (s : State) (w : Nat) : State := { s with turns := .clock (BitVec.ofNat 11 w) :: s.turns }

end Sys2Proof.Machine
end

