-- ==== Sys2Proof/Machine/Step.lean ====
section
/-! DEFINITION. One step: the next turn of the schedule, a clock cycle of the system or a turn of the consumer. -/

namespace Sys2Proof.Machine

/-- One turn (40 R100, 43 R190, R206): a clock cycle runs the operation its vector decodes to in the present phase. -/
def step (s : State) : Host.Outcome State Fault Refusal :=
  elaborated s.cfg <|
    match takeTurn s with
    | (.clock iv, t) => exec (decode t.fdet.phase iv) t
    | (.consumer late, t) => consumerTurn late t

/-- The state with a vector scheduled as the very next turn (log 2). -/
def State.withFetchWord (s : State) (nbits w : Nat) : State := scheduleFirst s (w % 2 ^ nbits)

end Sys2Proof.Machine
end

