-- ==== Sys2Proof/Machine/Ports.lean ====
section
/-! DEFINITION. The output ports (spec/10_state.md R27, R28). -/

namespace Sys2Proof.Machine

/-- `phase_o` (10 R28). -/
def State.phaseO (s : State) : BitVec 2 := s.fdet.phase.toBits

/-- `seen_o` (10 R28). -/
def State.seenO (s : State) : Word := s.fdet.seen

/-- `declared_o` (10 R28). -/
def State.declaredO (s : State) : Word := s.fdet.declared

/-- `desc_valid` as it stood in the latest clock cycle (10 R27; log 10). -/
def State.descValidPort (s : State) : Bool := descValid s.out

/-- `desc` as it stood in the latest clock cycle (10 R27; log 10). -/
def State.descPort (s : State) : Word := descWord s.out

end Sys2Proof.Machine
end

