-- ==== Sys2Proof/Machine/Stimulus.lean ====
section
/-! DEFINITION. The stimulus syntax (spec/30_encoding.md R78, R79): its lines, their expansion into one input vector a cycle,
a reader of its text, and how a script is placed in the schedule. -/

namespace Sys2Proof.Machine

/-- A line of a stimulus script; the last three are R79's pseudo-instructions. -/
inductive StimLine where
  | reset
  /-- `FLUSH`, or `FLUSH 0xNN` with a byte that is dropped -/
  | flush (b : Option Byte)
  | push (b : Byte)
  | idle
  /-- `PUSHS 0xB0, ..., 0xBk` -/
  | pushs (bs : List Byte)
  /-- `FILL n, 0xNN` -/
  | fill (n : Nat) (b : Byte)
  /-- `IDLE n` -/
  | idles (n : Nat)
  deriving DecidableEq, Repr

/-- The canonical vectors of a line, every don't-care bit 0, one a cycle (30 R78, R79). -/
def StimLine.vectors : StimLine → List InputVec
  | .reset => [0x400#11]
  | .flush none => [0x200#11]
  | .flush (some b) => [0x300#11 ||| b.zeroExtend 11]
  | .push b => [0x100#11 ||| b.zeroExtend 11]
  | .idle => [0x000#11]
  | .pushs bs => bs.map fun b => 0x100#11 ||| b.zeroExtend 11
  | .fill n b => List.replicate n (0x100#11 ||| b.zeroExtend 11)
  | .idles n => List.replicate n 0x000#11

/-- The vectors of a script. -/
def scriptVectors (script : List StimLine) : List InputVec := script.flatMap StimLine.vectors

/-- Place a script in the schedule, before everything else. -/
def State.withScript (s : State) (script : List StimLine) : State :=
  { s with turns := (scriptVectors script).map Turn.clock ++ s.turns }

/-- How a result is written beside a line: the signed decimal value of `desc`, when `desc_valid` = 1 (30 R79). -/
def resultNote (out : Option Word) : Option String := out.map fun d => "desc = " ++ toString (asI32 d)

/-! ## Reading the text -/

/-- Words of a line: maximal runs between blanks, a comma being a word of its own (log 18). -/
def lineWords (acc : List Char) : List Char → List (List Char)
  | [] => if acc = [] then [] else [acc.reverse]
  | c :: rest =>
    let done := if acc = [] then [] else [acc.reverse]
    if c = ' ' ∨ c = '\t' ∨ c = '\r' then done ++ lineWords [] rest
    else if c = ',' then done ++ [','] :: lineWords [] rest
    else lineWords (c :: acc) rest

/-- The lines of a text. -/
def textLines (acc : List Char) : List Char → List (List Char)
  | [] => [acc.reverse]
  | c :: rest => if c = '\n' then acc.reverse :: textLines [] rest else textLines (c :: acc) rest

/-- The value of a digit in lower case. -/
def digitValue (base : Nat) (c : Char) : Option Nat :=
  let v :=
    if '0' ≤ c ∧ c ≤ '9' then some (c.toNat - '0'.toNat)
    else if 'a' ≤ c ∧ c ≤ 'f' then some (c.toNat - 'a'.toNat + 10)
    else none
  v.filter fun d => decide (d < base)

/-- A byte, written `0xNN` (30 R78), in lower case (log 18). -/
def readByte (w : List Char) : Option Byte :=
  match w with
  | ['0', 'x', hi, lo] => do
    let h ← digitValue 16 hi
    let l ← digitValue 16 lo
    return BitVec.ofNat 8 (16 * h + l)
  | _ => none

/-- The count `n` of `FILL` and `IDLE n`. 30 R79 says only `n`, and 00 R8 knows plain and `0x` numbers: that a count is
spelled in decimal digits alone, 0 and leading zeros among them, is the model's choice (DESIGN CHOICE, log 18). -/
def readCount (w : List Char) : Option Nat :=
  match w with
  | [] => none
  | _ => w.foldlM (fun n c => (digitValue 10 c).map fun d => 10 * n + d) 0

/-- Bytes separated by commas, at least one (log 18). -/
def readBytes : List (List Char) → Option (List Byte)
  | [w] => (readByte w).map fun b => [b]
  | w :: [','] :: rest => do
    let b ← readByte w
    let bs ← readBytes rest
    return b :: bs
  | _ => none

/-- The line some words spell: the words are in lower case, "Mnemonics are case-insensitive" (30 R78).
A result `desc = v`, which 30 R79 writes on the line of its cycle, is no part of a line's words: that it may stand in the
text only behind `;` is the model's choice (DESIGN CHOICE, log 18). -/
def readWords (ws : List (List Char)) : Option StimLine :=
  match ws with
  | ['r', 'e', 's', 'e', 't'] :: [] => some .reset
  | ['f', 'l', 'u', 's', 'h'] :: [] => some (.flush none)
  | ['f', 'l', 'u', 's', 'h'] :: w :: [] => (readByte w).map fun b => .flush (some b)
  | ['p', 'u', 's', 'h'] :: w :: [] => (readByte w).map .push
  | ['p', 'u', 's', 'h', 's'] :: rest => (readBytes rest).map .pushs
  | ['f', 'i', 'l', 'l'] :: n :: [','] :: w :: [] => do
    let n ← readCount n
    let b ← readByte w
    return .fill n b
  | ['i', 'd', 'l', 'e'] :: [] => some .idle
  | ['i', 'd', 'l', 'e'] :: n :: [] => (readCount n).map .idles
  | _ => none

/-- One line of text: `;` starts a comment (30 R78); a line with nothing before it is no cycle (log 18). The whole line is
read in lower case: R78 makes the mnemonics case-insensitive and says nothing of the case of a byte's `0x` and hex digits,
so that `0xb5`, `0xB5` and `0XB5` are one byte is the model's choice (DESIGN CHOICE, log 18). -/
def readLine (line : List Char) : Option (List StimLine) :=
  match lineWords [] ((line.takeWhile fun c => c != ';').map Char.toLower) with
  | [] => some []
  | ws => (readWords ws).map fun l => [l]

/-- A script from its text; none when a line is not of the syntax. -/
def readScript (text : List Char) : Option (List StimLine) :=
  ((textLines [] text).mapM readLine).map List.flatten

end Sys2Proof.Machine
end

