-- ==== Sys2Proof/Safety.lean ====
section
/-! DEFINITION. The terms in which claims about a run are made: the invariants of the spec (10_state.md R30, 20_memory.md
R63, 43_environment.md R191, R196), runs of clock cycles and what they emit, and the alignment of descriptors with unread
bytes (40_sequencer.md R118). -/

namespace Sys2Proof.Machine

/-- 10 R30, with the window's size (10 R24). -/
abbrev Fdet.Inv (cfg : Config) (f : Fdet) : Prop :=
  f.win.length = cfg.winDepth ∧
  f.phase ≠ .rsv ∧
  (f.phase = .wfh → cfg.S ≤ f.seen.toNat ∧ f.seen.toNat < cfg.H) ∧
  (f.phase = .wfb → cfg.H ≤ f.seen.toNat ∧ f.seen.toNat < f.declared.toNat ∧ cfg.H < f.declared.toNat ∧
    f.declared.toNat ≤ 2 ^ 31 - 1)

/-- 43 R191: 0 <= `BC.wr - BC.rd` <= C; the storage is canonical and within C; every unread byte was appended. -/
abbrev ByteChannel.Inv (capacity : Nat) (ch : ByteChannel) : Prop :=
  ch.rd ≤ ch.wr ∧
  ch.wr - ch.rd ≤ capacity ∧
  ch.mem.wf ∧
  (∀ c ∈ ch.mem, c.1 < capacity) ∧
  ∀ k < ch.wr - ch.rd, (ch.mem.read? (storageIndex capacity (ch.rd + k))).isSome

/-- The consumer holds no zero descriptor. -/
def Reader.holdsNoZero : Reader → Bool
  | .idle => true
  | .waiting _ => true
  | .holding _ d => d != 0#32

/-- Legal parameters (00 R7, 43 R207), 10 R30, 43 R191 and R196, and no zero descriptor anywhere (42 R174). -/
abbrev State.Inv (s : State) : Prop :=
  s.cfg.legal = true ∧
  s.fdet.Inv s.cfg ∧
  s.bc.Inv s.cfg.capacity ∧
  s.dq.length ≤ s.cfg.queueDepth ∧
  0#32 ∉ s.dq ∧
  s.out ≠ some 0#32 ∧
  s.reader.holdsNoZero = true

/-- 20 R63: each window position holds the byte appended that long ago, where the ByteChannel still stores it, and 0x00
where nothing has been appended since the last reset or flush (10 R33). -/
abbrev State.LookBack (s : State) : Prop :=
  ∀ i < s.cfg.winDepth,
    (i < s.bc.wr → i < s.cfg.capacity →
      s.bc.mem.read? (storageIndex s.cfg.capacity (s.bc.wr - 1 - i)) = some (viewAt s.fdet.win i)) ∧
    (s.bc.wr ≤ i → viewAt s.fdet.win i = 0x00#8)

/-- One clock cycle: the operation its vector decodes to in the present phase (30 R74, R75; 40 R100). -/
def clockCycle (iv : InputVec) (s : State) : Host.Outcome State Fault Refusal := exec (decode s.fdet.phase iv) s

/-- The vector of a PUSH (30 R78). -/
def pushVector (b : Byte) : InputVec := inputVector false false true b

/-- Clock cycles in a row, no consumer turn between them, with the descriptors emitted in order. -/
def runCycles : List InputVec → State → Option (State × List Word)
  | [], s => some (s, [])
  | iv :: rest, s =>
    match clockCycle iv s with
    | .next t => (runCycles rest t).map fun r => (r.1, t.out.toList ++ r.2)
    | .fault _ => none
    | .refused _ => none

/-- A run's result without the record of its last cycle's output. -/
def forgetOutput (r : State × List Word) : State × List Word := (systemIdle r.1, r.2)

/-- A run's FDET, ports and descriptors, and both channels but for the model's own count of resets (log 11): all but the
parameters, the consumer and the schedule. -/
def visiblePart (r : State × List Word) : Fdet × Option Word × List Word × ByteChannel × List Word :=
  (r.1.fdet, r.1.out, r.1.dq, { r.1.bc with epoch := 0 }, r.2)

/-- Steps in a row; none when one of them stops. -/
def runSteps : Nat → State → Option State
  | 0, s => some s
  | n + 1, s =>
    match step s with
    | .next t => runSteps n t
    | .fault _ => none
    | .refused _ => none

/-- How many steps the call of `next` that is going on may still take: a scheduled turn may queue one more descriptor, a
descriptor is dequeued and then read or discarded, and an empty DQ times out (43 R201, R206). -/
def callBudget (s : State) : Nat :=
  3 * s.turns.length + 2 * s.dq.length +
    match s.reader with
    | .idle => 0
    | .waiting _ => 1
    | .holding _ _ => 2

/-- What RESET, FLUSH, IDLE and PUSH leave alone: the parameters, the consumer and the schedule. -/
abbrev SameEnvironment (s t : State) : Prop :=
  t.cfg = s.cfg ∧ t.reader = s.reader ∧ t.calls = s.calls ∧ t.ret = s.ret ∧ t.buf = s.buf ∧ t.turns = s.turns

/-- The window of 20 R52: `win[0] <- in_byte`, `win[i] <- win[i-1]`. -/
abbrev WindowShifted (depth : Nat) (b : Byte) (old new : List Byte) : Prop :=
  (old.length = depth → new.length = depth) ∧
  (0 < depth → viewAt new 0 = b) ∧
  ∀ i, 0 < i → i < depth → viewAt new i = viewAt old (i - 1)

/-- `BC.append(b)` (43 R192): the byte at the write cursor's place, every other byte as before, both cursors. -/
abbrev Appended (capacity : Nat) (b : Byte) (old new : ByteChannel) : Prop :=
  new.mem.read? (storageIndex capacity old.wr) = some b ∧
  (∀ a, a ≠ storageIndex capacity old.wr → new.mem.read? a = old.mem.read? a) ∧
  new.wr = old.wr + 1 ∧
  (old.wr + 1 - old.rd ≤ capacity → new.rd = old.rd) ∧
  (capacity < old.wr + 1 - old.rd → new.rd = old.wr + 1 - capacity) ∧
  new.epoch = old.epoch

/-- The DescriptorChannel after a cycle that emits `out` (43 R196, R199). -/
abbrev Offered (depth : Nat) (out : Option Word) (old new : List Word) : Prop :=
  match out with
  | none => new = old
  | some d => (old.length < depth → new = old ++ [d]) ∧ (depth ≤ old.length → new = old)

/-- RESET and FLUSH on the system (40 R101, R102; 43 R200): every FDET register at its reset value, no descriptor, DQ and BC
empty with nothing stored that is still specified, and the frame. -/
def SystemCleared (s t : State) : Prop :=
  SameEnvironment s t ∧ t.out = none ∧
  t.fdet.phase = .lfs ∧ t.fdet.seen = 0#32 ∧ t.fdet.declared = 0#32 ∧ t.fdet.win = List.replicate (s.cfg.H - 1) 0x00#8 ∧
  t.dq = [] ∧ t.bc.wr = 0 ∧ t.bc.rd = 0 ∧ ∀ a, t.bc.mem.read? a = none

/-- System PUSH with descriptor `out` (43 R199): the append, the window's shift, the enqueue, and the frame. -/
def SystemPushed (b : Byte) (out : Option Word) (s t : State) : Prop :=
  SameEnvironment s t ∧ t.out = out ∧ WindowShifted s.cfg.winDepth b s.fdet.win t.fdet.win ∧
  Appended s.cfg.capacity b s.bc t.bc ∧ Offered s.cfg.queueDepth out s.dq t.dq

/-- The bytes the consumer still owes a dequeued descriptor. -/
def heldBytes : Reader → Nat
  | .idle => 0
  | .waiting _ => 0
  | .holding _ d => (asI32 d).natAbs

/-- The bytes a list of descriptors counts. -/
def countedBytes (ds : List Word) : Nat := (ds.map fun d => (asI32 d).natAbs).sum

/-- Every unread byte is counted by exactly one queued or held descriptor or by the open phase (40 R118). -/
abbrev State.Aligned (s : State) : Prop :=
  s.bc.wr - s.bc.rd = heldBytes s.reader + countedBytes s.dq + s.fdet.seen.toNat

/-- Nothing is lost in the next turn: DQ and BC have room (70 R246, R247), the noise count keeps its meaning (70 R248),
the sync is qualified, and the consumer is not cut in two by a flush or reset (43 R206). -/
abbrev State.Roomy (s : State) : Prop :=
  s.cfg.syncQual = .qualified ∧
  s.dq.length < s.cfg.queueDepth ∧
  s.bc.wr - s.bc.rd < s.cfg.capacity ∧
  s.fdet.seen.toNat < 2 ^ 31 ∧
  ∀ iv, s.turns.head? = some (.clock iv) → ivRst iv = true ∨ ivFlush iv = true → heldBytes s.reader = 0

/-- Two FDETs that differ at most in window positions the current phase has not filled (20 R54). -/
abbrev SameButUnfilled (f g : Fdet) : Prop :=
  f.phase = g.phase ∧ f.seen = g.seen ∧ f.declared = g.declared ∧ f.win.length = g.win.length ∧
  ∀ i < f.seen.toNat, viewAt f.win i = viewAt g.win i

/-- A frame as FDET sees it (41 R146, R151), bytes in arrival order: its first S bytes are a sync and its first H bytes decode
to its whole length. -/
def IsFrame (cfg : Config) (frame : List Byte) : Prop :=
  cfg.H < frame.length ∧
  detectSync cfg.policy (frame.take cfg.S).reverse = true ∧
  (decodeBodyLength cfg.policy (frame.take cfg.H).reverse).toNat = frame.length

end Sys2Proof.Machine
end

