-- ==== Sys2Proof/Certificates/Slice0/Obligations.lean ====
section
/-! DEFINITION. The statements about the model. Each docstring names the rule of spec/ it formalises. -/

section

open Sys2Proof Sys2Proof.Machine

/-! ## Encoding and decode (spec/30_encoding.md) -/

/-- 30 R74: each of the 2^11 vectors matches exactly one row of the table, and is decoded to that row's operation. -/
def Obligations.EveryVectorHasExactlyOneOperation : Prop :=
  ∀ (p : Phase) (iv : InputVec), ∃ r ∈ opTable, r.matchesVec iv = true ∧ (decode p iv).operation = r.op ∧
    ∀ q ∈ opTable, q.matchesVec iv = true → q = r

/-- 30 R75: the branch of a PUSH is chosen by the phase alone. -/
def Obligations.PushBranchFollowsPhase : Prop :=
  ∀ iv : InputVec, ivRst iv = false → ivFlush iv = false → ivValid iv = true →
    decode .lfs iv = .pushLfs (ivByte iv) ∧ decode .wfh iv = .pushWfh (ivByte iv) ∧
    decode .wfb iv = .pushWfb (ivByte iv) ∧ decode .rsv iv = .pushRsv (ivByte iv)

/-- Decoding an operation's vector, in a phase it belongs to, gives the operation back with every operand (30 R70, R74,
R75; the ignored bits as operands are log 9). -/
def Obligations.DecodeOfEncodeIsIdentity : Prop :=
  ∀ (p : Phase) (i : Instr), i.wfIn p = true → decode p (encode i) = i

/-- Encoding what a vector decodes to gives the vector back, and the operation belongs to the phase (30 R70, R74, R75). -/
def Obligations.EncodeOfDecodeIsIdentity : Prop :=
  ∀ (p : Phase) (iv : InputVec), encode (decode p iv) = iv ∧ (decode p iv).wfIn p = true

/-- Vectors written out from 30 R70 and R74 decode to the operations they stand for. -/
def Obligations.WrittenOutVectorsDecode : Prop :=
  decode .lfs 0b000_00000000#11 = .idle 0x00#8 ∧ decode .wfh 0b000_11111111#11 = .idle 0xFF#8 ∧
  decode .lfs 0b001_10110101#11 = .pushLfs 0xB5#8 ∧ decode .wfh 0b001_00000000#11 = .pushWfh 0x00#8 ∧
  decode .wfb 0b001_10111011#11 = .pushWfb 0xBB#8 ∧ decode .rsv 0b001_00000001#11 = .pushRsv 0x01#8 ∧
  decode .wfb 0b010_00000000#11 = .flush false 0x00#8 ∧ decode .wfh 0b011_01100010#11 = .flush true 0x62#8 ∧
  decode .lfs 0b100_00000000#11 = .reset false false 0x00#8 ∧ decode .wfb 0b101_01100010#11 = .reset false true 0x62#8 ∧
  decode .rsv 0b111_11111111#11 = .reset true true 0xFF#8

/-- 30 R71: outside PUSH the bits an operation does not name are don't-care: two vectors of one operation other than PUSH
act alike in every state; and PUSH takes `iv[7:0]` unmodified. -/
def Obligations.DontCareBitsHaveNoEffect : Prop :=
  (∀ (s : State) (iv jv : InputVec), (decode s.fdet.phase iv).operation = (decode s.fdet.phase jv).operation →
    (decode s.fdet.phase iv).operation ≠ .push → clockCycle iv s = clockCycle jv s) ∧
  ∀ (p : Phase) (b : Byte), decode p (inputVector false false true b) = pushBranch p b

/-- 30 R78, R79: the vectors of a script line, as the operations they decode to in any phase. -/
def Obligations.ScriptLinesExpandToTheirOperations : Prop :=
  ∀ (p : Phase) (b : Byte) (bs : List Byte) (n : Nat),
    StimLine.reset.vectors.map (decode p) = [.reset false false 0x00#8] ∧
    (StimLine.flush none).vectors.map (decode p) = [.flush false 0x00#8] ∧
    (StimLine.flush (some b)).vectors.map (decode p) = [.flush true b] ∧
    (StimLine.push b).vectors.map (decode p) = [pushBranch p b] ∧
    StimLine.idle.vectors.map (decode p) = [.idle 0x00#8] ∧
    (StimLine.pushs bs).vectors.map (decode p) = bs.map (pushBranch p) ∧
    (StimLine.fill n b).vectors.map (decode p) = List.replicate n (pushBranch p b) ∧
    (StimLine.idles n).vectors.map (decode p) = List.replicate n (.idle 0x00#8)

/-! ## The step -/

/-- 40 R100: one clock cycle applies exactly one operation, the one its vector decodes to in the present phase; the turn is
taken off the schedule first (log 2). -/
def Obligations.StepRunsTheDecodedOperation : Prop :=
  ∀ (s : State) (i : Instr) (rest : List Turn), s.cfg.legal = true → i.wfIn s.fdet.phase = true →
    s.turns = .clock (encode i) :: rest → step s = exec i { s with turns := rest }

/-- 43 R197: "A wait never lasts for ever: if no enqueue comes, the dequeue returns `timeout`". With nothing scheduled the
step is an IDLE cycle between calls, and inside a call the consumer's turn with its deadline passed (the model's choice,
log 2). So every call under way ends within a bound, by returning or by the underrun of 43 R205, whatever the schedule and
the draws; and a wait on an empty DQ during which no byte is pushed makes `next` return 0. -/
def Obligations.NoWaitLastsForEver : Prop :=
  (∀ s : State, s.cfg.legal = true → s.turns = [] →
    (s.reader = .idle → step s = exec (.idle 0x00#8) s) ∧ (s.reader ≠ .idle → step s = consumerTurn true s)) ∧
  (∀ s : State, s.Inv → s.reader ≠ .idle → ∃ n ≤ callBudget s, ∃ t, runSteps n s = some t ∧
    ((t.reader = .idle ∧ t.ret.isSome = true) ∨ ∃ requested, step t = .fault (.envUnderrun requested t.bc.unread))) ∧
  ∀ (s : State) (cap : Nat), s.cfg.legal = true → s.reader = .waiting cap → s.dq = [] →
    (∀ iv, .clock iv ∈ s.turns → (decode .lfs iv).operation ≠ .push) →
    ∃ n ≤ s.turns.length + 1, ∃ t, runSteps n s = some t ∧ t.reader = .idle ∧ t.ret = some 0

/-- 43 R190, R206: a consumer turn is one critical section of the consumer, and nothing of FDET moves in it. That the turn
is taken off a schedule is log 2, that entering a call is a turn of its own, which R206 does not list, is log 3, and that the
record of the ports stays is log 10: the model's choices. -/
def Obligations.ConsumerTurnLeavesFdetAlone : Prop :=
  ∀ (s t : State) (late : Bool) (rest : List Turn), s.cfg.legal = true → s.turns = .consumer late :: rest →
    step s = consumerTurn late { s with turns := rest } ∧
    (step s = .next t → t.cfg = s.cfg ∧ t.fdet = s.fdet ∧ t.out = s.out ∧ t.bc.wr = s.bc.wr ∧ t.bc.mem = s.bc.mem ∧
      t.turns = rest)

/-- 00 R7, 43 R207, 60 R221: a configuration that breaks a condition has no run: the step stops, with the condition that
fails, or with the value of C. R7 is spelled out in numbers: S = 0, H <= S, 64 < H, or a header whose decoded length is
outside H + 1 .. 2^31 - 1 (41 R142). The model's choices are that an ill-formed or redundant GENERIC table is refused,
though the function it stands for may meet R142 (log 4: all that the second clause adds to the first), which condition is
recorded when several fail (log 5), and that QD = 0 is refused (log 6). -/
def Obligations.IllegalConfigurationHasNoRun : Prop :=
  ∀ s : State,
    (s.cfg.S = 0 ∨ s.cfg.H ≤ s.cfg.S ∨ 64 < s.cfg.H ∨
      (∃ view, ¬(s.cfg.H + 1 ≤ (decodeBodyLength s.cfg.policy view).toNat ∧
        (decodeBodyLength s.cfg.policy view).toNat ≤ 2 ^ 31 - 1)) →
      ∃ c, s.cfg.policy.meets c = false ∧ step s = .fault (.configRefused c)) ∧
    (s.cfg.policy.legal = false → ∃ c, s.cfg.policy.meets c = false ∧ step s = .fault (.configRefused c)) ∧
    (s.cfg.policy.legal = true → (s.cfg.storageBound = false ∨ ∀ k, s.cfg.capacity ≠ 2 ^ k) →
      step s = .fault (.envConfig s.cfg.capacity)) ∧
    (s.cfg.policy.legal = true → s.cfg.storageBound = true → (∃ k, s.cfg.capacity = 2 ^ k) → s.cfg.queueDepth = 0 →
      step s = .refused .queueDepthZero)

/-- 00 R6: the parameters are fixed for the life of an instance. -/
def Obligations.ParametersNeverChange : Prop :=
  ∀ s t : State, step s = .next t → t.cfg = s.cfg

/-! ## RESET, FLUSH, IDLE (spec/40_sequencer.md) -/

/-- 40 R101, 43 R200: RESET, decoded from every vector with `iv[10]` = 1, in every state and whatever its other inputs,
writes all the state; the byte presented with it is not appended; a second RESET gives the same FDET and the same empty
channels; nothing of the parameters or the schedule changes. That nothing of the consumer changes is the model's inference
(DEDUCED, log 12). -/
def Obligations.ResetWritesAllState : Prop :=
  ∀ (s : State) (f v : Bool) (b : Byte), decode s.fdet.phase (inputVector true f v b) = .reset f v b ∧
    ∃ t, exec (.reset f v b) s = .next t ∧ SystemCleared s t ∧
      ∃ u, exec (.reset f v b) t = .next u ∧ SystemCleared s u ∧ u.fdet = t.fdet

/-- 40 R102, 43 R200: FLUSH, decoded from every vector with `iv[10:9]` = 0b01, in every state, writes all the state, drops a
presented byte and emits nothing; nothing of the parameters or the schedule changes. That nothing of the consumer changes
is the model's inference (DEDUCED, log 12). -/
def Obligations.FlushWritesAllState : Prop :=
  ∀ (s : State) (v : Bool) (b : Byte), decode s.fdet.phase (inputVector false true v b) = .flush v b ∧
    ∃ t, exec (.flush v b) s = .next t ∧ SystemCleared s t

/-- 70 R241: RESET and FLUSH leave the same state, in FDET and in the system, where both clear DQ and reset BC; they differ
in priority only. -/
def Obligations.ResetAndFlushLeaveTheSameState : Prop :=
  (∀ (s : State) (f v w : Bool) (b c : Byte), ∃ t, exec (.reset f v b) s = .next t ∧ exec (.flush w c) s = .next t ∧
    t.dq = [] ∧ t.bc.wr = 0 ∧ t.bc.rd = 0) ∧
  ∀ (p : Phase) (v : Bool) (b : Byte), (decode p (inputVector true true v b)).operation = .reset

/-- 40 R103: IDLE, decoded from every vector with `iv[10:8]` = 0b000, completes in every phase, changes nothing and emits
nothing. -/
def Obligations.IdleChangesNothing : Prop :=
  ∀ (s : State) (b : Byte), decode s.fdet.phase (inputVector false false false b) = .idle b ∧
    ∃ t, exec (.idle b) s = .next t ∧ SameEnvironment s t ∧ t.fdet = s.fdet ∧ t.bc = s.bc ∧ t.dq = s.dq ∧ t.out = none

/-- 40 R103: "any number of IDLE cycles between two PUSHes changes nothing": a run of cycles and the same run without its
IDLE cycles end in the same state, but for the record of the last cycle's output, and emit the same descriptors. -/
def Obligations.IdleCyclesCanBeLeftOut : Prop :=
  ∀ (ivs : List InputVec) (s : State),
    (runCycles ivs s).map forgetOutput =
      (runCycles (ivs.filter fun iv => ivRst iv || ivFlush iv || ivValid iv) s).map forgetOutput

/-- 40 R102, 43 R200: after a FLUSH nothing of before has any effect on FDET or the channels in later cycles: from any two
states of one configuration, a FLUSH and the same later cycles lead to the same FDET, ports, DQ, ByteChannel (cursors and
stored bytes) and descriptors. The consumer is not among them: it may carry a dequeued descriptor across a FLUSH
(DEDUCED, log 12). -/
def Obligations.FlushForgetsThePast : Prop :=
  ∀ (s u : State) (v : Bool) (b : Byte) (ivs : List InputVec), s.cfg = u.cfg →
    (runCycles (inputVector false true v b :: ivs) s).map visiblePart =
      (runCycles (inputVector false true v b :: ivs) u).map visiblePart

/-! ## PUSH in LFS -/

/-- 40 R105: no sync: `seen <- n`, phase and `declared` unchanged, no descriptor. -/
def Obligations.LfsPushWithoutSyncCounts : Prop :=
  ∀ (s : State) (b : Byte), s.cfg.legal = true → s.fdet.phase = .lfs →
    ¬(detectSync s.cfg.policy (effectiveView s.fdet.win b) = true ∧
      (s.cfg.syncQual = .literal ∨ s.cfg.S ≤ (s.fdet.seen + 1#32).toNat)) →
    ∃ t, exec (.pushLfs b) s = .next t ∧ SystemPushed b none s t ∧ t.fdet.phase = .lfs ∧
      t.fdet.seen = s.fdet.seen + 1#32 ∧ t.fdet.declared = s.fdet.declared

/-- 40 R106: the sync decision: a push in LFS leaves LFS exactly when the last S bytes match and, under QUALIFIED, lie in
the phase. -/
def Obligations.SyncDecisionIsMatchAndQualification : Prop :=
  ∀ (s : State) (b : Byte), s.cfg.legal = true → s.fdet.phase = .lfs →
    ∃ t, exec (.pushLfs b) s = .next t ∧
      (t.fdet.phase = .wfh ↔ detectSync s.cfg.policy (effectiveView s.fdet.win b) = true ∧
        (s.cfg.syncQual = .literal ∨ s.cfg.S ≤ (s.fdet.seen + 1#32).toNat)) ∧
      (t.fdet.phase ≠ .wfh → t.fdet.phase = .lfs)

/-- 40 R107: sync after noise, n above S: `neg32(n - S)` is emitted, which reads as minus the noise up to 2^31; `seen <- S`,
phase WFH, `declared` unchanged. (n below S, which only LITERAL lets match, is R109.) -/
def Obligations.LfsSyncAfterNoiseEmitsDiscard : Prop :=
  ∀ (s : State) (b : Byte), s.cfg.legal = true → s.fdet.phase = .lfs →
    detectSync s.cfg.policy (effectiveView s.fdet.win b) = true →
    s.cfg.S < (s.fdet.seen + 1#32).toNat →
    ∃ t d, exec (.pushLfs b) s = .next t ∧ SystemPushed b (some d) s t ∧ t.fdet.phase = .wfh ∧
      t.fdet.seen.toNat = s.cfg.S ∧ t.fdet.declared = s.fdet.declared ∧
      d.toNat = 2 ^ 32 - ((s.fdet.seen + 1#32).toNat - s.cfg.S) ∧
      ((s.fdet.seen + 1#32).toNat - s.cfg.S ≤ 2 ^ 31 →
        asI32 d = -(((s.fdet.seen + 1#32).toNat : Int) - (s.cfg.S : Int)))

/-- 40 R108: sync with no noise, n = S: no descriptor, `seen <- S`, phase WFH, `declared` unchanged. -/
def Obligations.LfsSyncWithoutNoiseIsSilent : Prop :=
  ∀ (s : State) (b : Byte), s.cfg.legal = true → s.fdet.phase = .lfs →
    detectSync s.cfg.policy (effectiveView s.fdet.win b) = true →
    (s.fdet.seen + 1#32).toNat = s.cfg.S →
    ∃ t, exec (.pushLfs b) s = .next t ∧ SystemPushed b none s t ∧ t.fdet.phase = .wfh ∧
      t.fdet.seen.toNat = s.cfg.S ∧ t.fdet.declared = s.fdet.declared

/-- 40 R109: under LITERAL a sync with n < S emits the positive descriptor S - n, in 1 .. S, S only for n = 0, and goes on
to WFH. -/
def Obligations.LiteralStraddleEmitsPositive : Prop :=
  ∀ (s : State) (b : Byte), s.cfg.legal = true → s.fdet.phase = .lfs → s.cfg.syncQual = .literal →
    detectSync s.cfg.policy (effectiveView s.fdet.win b) = true →
    (s.fdet.seen + 1#32).toNat < s.cfg.S →
    ∃ t d, exec (.pushLfs b) s = .next t ∧ SystemPushed b (some d) s t ∧ t.fdet.phase = .wfh ∧
      t.fdet.seen.toNat = s.cfg.S ∧ t.fdet.declared = s.fdet.declared ∧
      asI32 d = (s.cfg.S : Int) - ((s.fdet.seen + 1#32).toNat : Int) ∧ 1 ≤ asI32 d ∧ asI32 d ≤ (s.cfg.S : Int) ∧
      (asI32 d = (s.cfg.S : Int) ↔ s.fdet.seen = 0xFFFFFFFF#32)

/-- 40 R119: at 2^32 - 1 a push without a sync wraps `seen` to 0, and nothing else happens: no descriptor, no fault. -/
def Obligations.SeenWrapsSilently : Prop :=
  ∀ (s : State) (b : Byte), s.cfg.legal = true → s.fdet.phase = .lfs → s.fdet.seen = 0xFFFFFFFF#32 →
    (s.cfg.syncQual = .qualified ∨ detectSync s.cfg.policy (effectiveView s.fdet.win b) = false) →
    ∃ t, exec (.pushLfs b) s = .next t ∧ t.fdet.seen = 0#32 ∧ t.fdet.phase = .lfs ∧
      t.fdet.declared = s.fdet.declared ∧ SystemPushed b none s t

/-! ## PUSH in WFH, WFB and the reserved phase -/

/-- 40 R111: header not complete: `seen <- n`, nothing else of the registers but the window, no descriptor. -/
def Obligations.WfhPushBeforeHeaderEndCounts : Prop :=
  ∀ (s : State) (b : Byte), s.cfg.legal = true → s.fdet.phase = .wfh → (s.fdet.seen + 1#32).toNat ≠ s.cfg.H →
    ∃ t, exec (.pushWfh b) s = .next t ∧ SystemPushed b none s t ∧ t.fdet.phase = .wfh ∧
      t.fdet.seen = s.fdet.seen + 1#32 ∧ t.fdet.declared = s.fdet.declared

/-- 40 R112: header complete: `declared` is the decoded length of the view, in H + 1 .. 2^31 - 1, `seen` = H, phase WFB, no
descriptor. -/
def Obligations.WfhPushAtHeaderEndDecodesLength : Prop :=
  ∀ (s : State) (b : Byte), s.cfg.legal = true → s.fdet.phase = .wfh → (s.fdet.seen + 1#32).toNat = s.cfg.H →
    ∃ t, exec (.pushWfh b) s = .next t ∧ SystemPushed b none s t ∧ t.fdet.phase = .wfb ∧
      t.fdet.seen.toNat = s.cfg.H ∧ t.fdet.declared = decodeBodyLength s.cfg.policy (effectiveView s.fdet.win b) ∧
      s.cfg.H < t.fdet.declared.toNat ∧ t.fdet.declared.toNat ≤ 2 ^ 31 - 1

/-- 40 R113: frame not complete: `seen <- n`, nothing else of the registers but the window, no descriptor. -/
def Obligations.WfbPushBeforeFrameEndCounts : Prop :=
  ∀ (s : State) (b : Byte), s.fdet.phase = .wfb → s.fdet.seen + 1#32 ≠ s.fdet.declared →
    ∃ t, exec (.pushWfb b) s = .next t ∧ SystemPushed b none s t ∧ t.fdet.phase = .wfb ∧
      t.fdet.seen = s.fdet.seen + 1#32 ∧ t.fdet.declared = s.fdet.declared

/-- 40 R114: frame complete: `declared` is emitted, `seen <- 0`, phase LFS, `declared` kept. -/
def Obligations.WfbPushAtFrameEndEmitsMessage : Prop :=
  ∀ (s : State) (b : Byte), s.fdet.phase = .wfb → s.fdet.seen + 1#32 = s.fdet.declared →
    ∃ t, exec (.pushWfb b) s = .next t ∧ SystemPushed b (some s.fdet.declared) s t ∧ t.fdet.phase = .lfs ∧
      t.fdet.seen = 0#32 ∧ t.fdet.declared = s.fdet.declared

/-- 40 R115: a PUSH in the reserved phase is `ModelFault(ReservedPhase)`, code 1; the fault records the input vector. -/
def Obligations.PushInReservedPhaseFaults : Prop :=
  ∀ (s : State) (b : Byte), s.fdet.phase = .rsv →
    clockCycle (pushVector b) s = .fault (.reservedPhase (pushVector b)) ∧
    exec (.pushRsv b) s = .fault (.reservedPhase (pushVector b)) ∧ (Fault.reservedPhase (pushVector b)).code = 1

/-- 40 R116: in WFH and WFB only the byte count is checked: two bytes, over any two windows, lead to the same phase, the
same count and the same descriptor. -/
def Obligations.OnlyTheCountMattersInsideAFrame : Prop :=
  ∀ (s : State) (b c : Byte) (win : List Byte), s.fdet.phase = .wfh ∨ s.fdet.phase = .wfb →
    ∃ t u, clockCycle (pushVector b) s = .next t ∧
      clockCycle (pushVector c) { s with fdet := { s.fdet with win := win } } = .next u ∧
      t.fdet.phase = u.fdet.phase ∧ t.fdet.seen = u.fdet.seen ∧ t.out = u.out

/-! ## The policies (spec/41_policy.md, 20_memory.md R54) -/

/-- 41 R144: Policy A matches 0xB5 followed by 0x62 and nothing else; 0xB5 0xB5 0x62 only at its third byte. -/
def Obligations.PolicyASyncIsB5Then62 : Prop :=
  (∀ view, detectSync .a view = true ↔ viewAt view 1 = 0xB5#8 ∧ viewAt view 0 = 0x62#8) ∧
  detectSync .a [0xB5#8, 0x62#8] = false ∧ detectSync .a [0xB5#8, 0xB5#8] = false ∧
  detectSync .a [0x62#8, 0xB5#8, 0xB5#8] = true ∧
  ∀ b, detectSync .a (effectiveView (Fdet.atReset Config.default.winDepth).win b) = false

/-- 41 R145: Policy A's length: the older of the last two header bytes low, the newer high, plus 8; 8 .. 65543. -/
def Obligations.PolicyALengthIsLittleEndianPlus8 : Prop :=
  ∀ view, (decodeBodyLength .a view).toNat = (viewAt view 1).toNat + 256 * (viewAt view 0).toNat + 8 ∧
    8 ≤ (decodeBodyLength .a view).toNat ∧ (decodeBodyLength .a view).toNat ≤ 65543

/-- 41 R148: Policy B matches 0xD3 followed by a byte in 0x00 .. 0x03 and nothing else; 0xD3 0xD3 0x00 only at its third
byte. -/
def Obligations.PolicyBSyncIsD3ThenSixZeroBits : Prop :=
  (∀ view, detectSync .b view = true ↔ viewAt view 1 = 0xD3#8 ∧ (viewAt view 0).toNat ≤ 3) ∧
  detectSync .b [0xD3#8, 0xD3#8] = false ∧ detectSync .b [0x00#8, 0xD3#8, 0xD3#8] = true ∧
  ∀ b, detectSync .b (effectiveView (List.replicate (Policy.H .b - 1) 0x00#8) b) = false

/-- 41 R150: Policy B's length is the last header byte plus 6, 6 .. 261; no other header byte is read. -/
def Obligations.PolicyBLengthIsBytePlus6 : Prop :=
  ∀ view, (decodeBodyLength .b view).toNat = (viewAt view 0).toNat + 6 ∧
    6 ≤ (decodeBodyLength .b view).toNat ∧ (decodeBodyLength .b view).toNat ≤ 261

/-- 41 R142, 00 R7: a legal policy's length is in H + 1 .. 2^31 - 1 for every header. -/
def Obligations.LegalPolicyMeetsItsContract : Prop :=
  ∀ (p : Policy) (view : List Byte), p.legal = true →
    p.H < (decodeBodyLength p view).toNat ∧ (decodeBodyLength p view).toNat ≤ 2 ^ 31 - 1

/-- 20 R54: the sync matcher reads only `view[0..S-1]`, the length decoder only `view[0..H-1]`. -/
def Obligations.PolicyReadsOnlyItsNewestBytes : Prop :=
  ∀ (p : Policy) (v w : List Byte),
    ((∀ i < p.S, viewAt v i = viewAt w i) → detectSync p v = detectSync p w) ∧
    ((∀ i < p.H, viewAt v i = viewAt w i) → decodeBodyLength p v = decodeBodyLength p w)

/-- 41 R140 to R142: GENERIC takes any two functions that meet the contract: each such pair is some legal table policy
(log 4). -/
def Obligations.GenericPolicyCanBeAnyContractFunctions : Prop :=
  ∀ (S H : Nat) (sync : List Byte → Bool) (len : List Byte → Word), 1 ≤ S → S < H → H ≤ 64 →
    (∀ k : List Byte, k.length = H → H < (len k).toNat ∧ (len k).toNat ≤ 2 ^ 31 - 1) →
    ∃ g : GenericPolicy, g.s = S ∧ g.h = H ∧ (Policy.generic g).legal = true ∧
      ∀ view, detectSync (.generic g) view = sync (newestBytes view S) ∧
        decodeBodyLength (.generic g) view = len (newestBytes view H)

/-! ## Descriptors (spec/42_descriptor.md) -/

/-- 42 R171: at most one descriptor a cycle, and only from two branches: the LFS sync with nonzero noise and the WFB
completion. -/
def Obligations.OnlyTwoBranchesEmit : Prop :=
  ∀ (s t : State) (i : Instr) (d : Word), s.cfg.legal = true → exec i s = .next t → t.out = some d →
    (∃ b, i = .pushLfs b ∧ t.fdet.phase = .wfh ∧ (s.fdet.seen + 1#32).toNat ≠ s.cfg.S) ∨
    (∃ b, i = .pushWfb b ∧ t.fdet.phase = .lfs ∧ s.fdet.seen + 1#32 = s.fdet.declared)

/-- 42 R174: 0 is never emitted; a message descriptor is at least H + 1. -/
def Obligations.ZeroIsNeverEmitted : Prop :=
  ∀ (s t : State) (i : Instr) (d : Word), s.Inv → i.wfIn s.fdet.phase = true → exec i s = .next t → t.out = some d →
    d ≠ 0#32 ∧ ((∃ b, i = .pushWfb b) → s.cfg.H + 1 ≤ d.toNat ∧ descriptorMeaning d = .message d.toNat)

/-- 42 R172, R176: for 1 to 2^31 noise bytes the discard descriptor reads as minus the noise, and the consumer recovers the
noise from it. -/
def Obligations.DiscardDescriptorIsMinusTheNoise : Prop :=
  ∀ noise : Word, 1 ≤ noise.toNat → noise.toNat ≤ 2 ^ 31 →
    asI32 (discardDescriptor noise) = -(noise.toNat : Int) ∧
    descriptorMeaning (discardDescriptor noise) = .discard noise.toNat ∧
    descriptorBytes (discardDescriptor noise) = noise.toNat

/-- 42 R177: a noise count above 2^31 is emitted exactly, and reads as a positive value in S + 1 .. 2^31 - 1. -/
def Obligations.LongNoiseReadsAsAMessage : Prop :=
  ∀ (S : Nat) (noise : Word), 2 ^ 31 + 1 ≤ noise.toNat → noise.toNat ≤ 2 ^ 32 - 1 - S →
    (discardDescriptor noise).toNat = 2 ^ 32 - noise.toNat ∧
    (S : Int) + 1 ≤ asI32 (discardDescriptor noise) ∧ asI32 (discardDescriptor noise) ≤ 2 ^ 31 - 1 ∧
    descriptorMeaning (discardDescriptor noise) = .message (2 ^ 32 - noise.toNat)

/-- 42 R179: no flow control: FDET's next state and output depend on its own state, the parameters and the inputs, on
nothing of the channels or the consumer; and a descriptor offered to a full DQ is lost. -/
def Obligations.FdetDependsOnNothingOutside : Prop :=
  ∀ (iv : InputVec) (s u t : State), s.cfg = u.cfg → s.fdet = u.fdet → clockCycle iv s = .next t →
    (∃ v, clockCycle iv u = .next v ∧ v.fdet = t.fdet ∧ v.out = t.out) ∧
    (t.out ≠ none → s.cfg.queueDepth ≤ s.dq.length → t.dq = s.dq)

/-- 20 R58, 43 R196: without RESET or FLUSH, and while there is room, the descriptors of a run are queued behind the earlier
ones in the order of their cycles. -/
def Obligations.DescriptorsQueueInCycleOrder : Prop :=
  ∀ (ivs : List InputVec) (s t : State) (ds : List Word),
    (∀ iv ∈ ivs, ivRst iv = false ∧ ivFlush iv = false) → runCycles ivs s = some (t, ds) →
    s.dq.length + ds.length ≤ s.cfg.queueDepth → t.dq = s.dq ++ ds

/-! ## The channels and the consumer (spec/43_environment.md) -/

/-- 43 R192: an append adds the byte behind the unread bytes; when they fill the channel the oldest of them is lost. -/
def Obligations.AppendOverwritesTheOldestWhenFull : Prop :=
  ∀ (capacity : Nat) (ch : ByteChannel) (b : Byte), (∃ k, capacity = 2 ^ k) → ch.Inv capacity →
    (ch.append capacity b).contents capacity =
      if ch.unread < capacity then ch.contents capacity ++ [b] else (ch.contents capacity).drop 1 ++ [b]

/-- 43 R201: between two calls the consumer enters its next call, if it has one to make (that the calls are queued is the
model's choice, log 3). 43 R197, R204: a dequeue on a non-empty DQ takes the head, whatever the draw; on an empty DQ the
draw decides between `timeout`, which makes `next` return 0, and waiting on, which changes nothing. -/
def Obligations.DequeueTakesTheHeadOrTimesOut : Prop :=
  ∀ (s : State) (late : Bool),
    (∀ cap rest, s.reader = .idle → s.calls = cap :: rest →
      consumerTurn late s = .next { s with calls := rest, reader := .waiting cap }) ∧
    (s.reader = .idle → s.calls = [] → consumerTurn late s = .next s) ∧
    (∀ cap d rest, s.reader = .waiting cap → s.dq = d :: rest →
      consumerTurn late s = .next { s with dq := rest, reader := .holding cap d }) ∧
    (∀ cap, s.reader = .waiting cap → s.dq = [] →
      consumerTurn late s = .next (if late then { s with reader := .idle, ret := some 0 } else s))

/-- 43 R202: a descriptor below 0, or above `cap`, makes the consumer discard |d| bytes and loop; nothing is delivered. -/
def Obligations.ConsumerDiscardsNoiseAndOversize : Prop :=
  ∀ (s : State) (late : Bool) (cap : Nat) (d : Word), s.reader = .holding cap d → asI32 d < 0 ∨ (cap : Int) < asI32 d →
    (asI32 d).natAbs ≤ s.bc.unread →
    ∃ t, consumerTurn late s = .next t ∧ t.reader = .waiting cap ∧ t.cfg = s.cfg ∧ t.fdet = s.fdet ∧ t.out = s.out ∧
      t.dq = s.dq ∧ t.calls = s.calls ∧ t.ret = s.ret ∧ t.buf = s.buf ∧ t.turns = s.turns ∧ t.bc.mem = s.bc.mem ∧
      t.bc.contents s.cfg.capacity = (s.bc.contents s.cfg.capacity).drop (asI32 d).natAbs

/-- 43 R193, R203: a descriptor in 1 .. `cap` makes the consumer deliver exactly the oldest d unread bytes, in order, and
return d. -/
def Obligations.ConsumerDeliversTheOldestBytes : Prop :=
  ∀ (s : State) (late : Bool) (cap : Nat) (d : Word), s.reader = .holding cap d → 0 < asI32 d → asI32 d ≤ (cap : Int) →
    (asI32 d).toNat ≤ s.bc.unread →
    ∃ t, consumerTurn late s = .next t ∧ t.reader = .idle ∧ t.ret = some (asI32 d).toNat ∧
      t.buf = (s.bc.contents s.cfg.capacity).take (asI32 d).toNat ∧ t.buf.length = (asI32 d).toNat ∧
      t.bc.contents s.cfg.capacity = (s.bc.contents s.cfg.capacity).drop (asI32 d).toNat ∧
      t.cfg = s.cfg ∧ t.fdet = s.fdet ∧ t.out = s.out ∧ t.dq = s.dq ∧ t.calls = s.calls ∧ t.turns = s.turns ∧
      t.bc.mem = s.bc.mem

/-- 43 R205: a read or a discard beyond the unread count is an environment fault, which records both counts; code 3. -/
def Obligations.UnderrunIsAnEnvironmentFault : Prop :=
  ∀ (s : State) (late : Bool) (cap : Nat) (d : Word), s.reader = .holding cap d → s.bc.unread < (asI32 d).natAbs →
    consumerTurn late s = .fault (.envUnderrun (asI32 d).natAbs s.bc.unread) ∧
    (Fault.envUnderrun (asI32 d).natAbs s.bc.unread).code = 3

/-- 43 R203, R204: a returned value is never above `cap`, whatever the descriptor, is the number of bytes delivered, and is
0 for no descriptor but 0. -/
def Obligations.NextNeverReturnsMoreThanCap : Prop :=
  ∀ (s t : State) (late : Bool) (cap : Nat) (d : Word), s.reader = .holding cap d → consumerTurn late s = .next t →
    (t.reader = .waiting cap ∧ t.ret = s.ret ∧ t.buf = s.buf) ∨
    (t.reader = .idle ∧ ∃ n ≤ cap, t.ret = some n ∧ t.buf.length = n ∧ (d ≠ 0#32 → 0 < n))

/-! ## Invariants and whole-machine rules -/

/-- 70 R240, R244: the launch state of every legal configuration, and State.reset among them, meets the invariant of 10 R30
and the window's agreement with the ByteChannel. -/
def Obligations.LaunchMeetsTheInvariant : Prop :=
  (∀ cfg : Config, cfg.legal = true → (State.launch cfg).Inv ∧ (State.launch cfg).LookBack) ∧
  State.reset.Inv ∧ State.reset.LookBack

/-- 10 R30, 43 R191, R196, 42 R174: every step keeps the invariant: the phase is legal, the counts are in their ranges, the
channels in their bounds, the byte storage in its canonical form, and no zero descriptor is anywhere. -/
def Obligations.StepKeepsTheInvariant : Prop :=
  ∀ s t : State, s.Inv → step s = .next t → t.Inv

/-- 20 R63, 10 R33: every step keeps FDET's window equal to the ByteChannel's newest bytes, and 0x00 where nothing has been
appended since the last reset or flush. -/
def Obligations.StepKeepsWindowEqualToChannel : Prop :=
  ∀ s t : State, s.Inv → s.LookBack → step s = .next t → t.LookBack

/-- 60 R220: from every state of the invariant a step goes on, but for the consumer's underrun (43 R205) in a turn of its
own, scheduled or for want of another (log 2). -/
def Obligations.OnlyTheConsumerCanStopTheMachine : Prop :=
  ∀ s : State, s.Inv → (∃ t, step s = .next t) ∨
    ∃ cap d, s.reader = .holding cap d ∧ (s.turns = [] ∨ ∃ late rest, s.turns = .consumer late :: rest) ∧
      step s = .fault (.envUnderrun (asI32 d).natAbs s.bc.unread) ∧ s.bc.unread < (asI32 d).natAbs

/-- 10 R23: `declared` is written only by the PUSH that completes the header, by FLUSH and by RESET. -/
def Obligations.DeclaredIsWrittenOnlyAtHeaderEnd : Prop :=
  ∀ s t : State, step s = .next t → t.fdet.declared ≠ s.fdet.declared →
    ∃ iv rest, s.turns = .clock iv :: rest ∧
      ((decode s.fdet.phase iv).operation = .reset ∨ (decode s.fdet.phase iv).operation = .flush ∨
        (decode s.fdet.phase iv = .pushWfh (ivByte iv) ∧ (s.fdet.seen + 1#32).toNat = s.cfg.H))

/-- 40 R118: frame accounting. Under QUALIFIED, pushes from the launch state, fewer than 2^31 of them, are each counted by
exactly one emitted descriptor or by the open phase. -/
def Obligations.EveryPushedByteIsCountedOnce : Prop :=
  ∀ (cfg : Config) (bs : List Byte), cfg.legal = true → cfg.syncQual = .qualified → bs.length < 2 ^ 31 →
    ∃ t ds, runCycles (bs.map pushVector) (State.launch cfg) = some (t, ds) ∧
      countedBytes ds + t.fdet.seen.toNat = bs.length

/-- 20 R54, 10 R33: under QUALIFIED, window bytes from before the current phase never reach a decision: two FDETs that
differ only in them emit the same descriptors for ever and keep differing only in such bytes. -/
def Obligations.QualifiedNeverReadsUnfilledWindow : Prop :=
  ∀ (ivs : List InputVec) (s u : State), s.cfg = u.cfg → s.cfg.legal = true → s.cfg.syncQual = .qualified →
    s.fdet.Inv s.cfg → u.fdet.Inv u.cfg → SameButUnfilled s.fdet u.fdet →
    ∃ t v ds, runCycles ivs s = some (t, ds) ∧ runCycles ivs u = some (v, ds) ∧ SameButUnfilled t.fdet v.fdet

/-- 40 R108, R110 to R114, R118: from LFS with nothing counted, the bytes of a frame emit exactly one descriptor, the
frame's length, at its last byte: every proper prefix of the frame emits nothing. FDET is back in LFS with nothing
counted. -/
def Obligations.FrameEmitsExactlyItsLength : Prop :=
  ∀ (s : State) (frame : List Byte), s.cfg.legal = true → s.cfg.syncQual = .qualified → s.fdet.Inv s.cfg →
    s.fdet.phase = .lfs → s.fdet.seen = 0#32 → IsFrame s.cfg frame →
    ∃ t, runCycles (frame.map pushVector) s = some (t, [BitVec.ofNat 32 frame.length]) ∧ t.fdet.phase = .lfs ∧
      t.fdet.seen = 0#32 ∧ t.fdet.declared.toNat = frame.length ∧
      ∀ k < frame.length, ∃ u, runCycles ((frame.take k).map pushVector) s = some (u, [])

/-- 43 R199, R192: pushed bytes that fit are found, in order, behind the unread bytes; nothing else of them moves. -/
def Obligations.PushedBytesAreStoredInOrder : Prop :=
  ∀ (bs : List Byte) (s t : State) (ds : List Word), s.cfg.legal = true → s.bc.Inv s.cfg.capacity →
    runCycles (bs.map pushVector) s = some (t, ds) → s.bc.unread + bs.length ≤ s.cfg.capacity →
    t.bc.contents s.cfg.capacity = s.bc.contents s.cfg.capacity ++ bs

/-- 40 R118, 70 R246 to R248: while nothing is lost, a step keeps every unread byte counted by exactly one queued or held
descriptor or by the open phase, and the consumer does not underrun. -/
def Obligations.AlignedStepStaysAlignedAndGoesOn : Prop :=
  ∀ s : State, s.Inv → s.Aligned → s.Roomy → ∃ t, step s = .next t ∧ t.Aligned

/-! ## The output ports (spec/10_state.md R27, R28) -/

/-- 10 R28, 30 R72: `phase_o` is the phase in R72's encoding, and the encoding is read back; `seen_o` and `declared_o` are
the registers. 10 R27, 30 R77, 42 R170: in every clock cycle from a state of the invariant `desc_valid` and `desc` show the
cycle's descriptor, and `desc` is 0x00000000 exactly when `desc_valid` is 0; an operation other than PUSH shows none, and
the byte that completes a frame shows `declared`. That the ports of a cycle are kept in the state is the model's choice
(log 10). -/
def Obligations.PortsShowRegistersAndDescriptor : Prop :=
  (∀ s : State, s.seenO = s.fdet.seen ∧ s.declaredO = s.fdet.declared ∧ Phase.ofBits s.phaseO = s.fdet.phase ∧
    (s.fdet.phase = .lfs ↔ s.phaseO = 0b00#2) ∧ (s.fdet.phase = .wfh ↔ s.phaseO = 0b01#2) ∧
    (s.fdet.phase = .wfb ↔ s.phaseO = 0b10#2) ∧ (s.fdet.phase = .rsv ↔ s.phaseO = 0b11#2)) ∧
  ∀ (s t : State) (i : Instr), s.Inv → i.wfIn s.fdet.phase = true → exec i s = .next t →
    (t.descPort = 0x00000000#32 ↔ t.descValidPort = false) ∧
    (∀ d, t.out = some d ↔ t.descValidPort = true ∧ t.descPort = d) ∧
    (i.operation ≠ .push → t.descValidPort = false) ∧
    ((∃ b, i = .pushWfb b) → s.fdet.seen + 1#32 = s.fdet.declared →
      t.descValidPort = true ∧ t.descPort = s.fdet.declared)

end
end

