-- ==== Sys2Proof/Laws/State.lean ====
section
/-! SUPPORT. One lemma per field and update: what each shared operation on the state leaves in each field. -/

namespace Sys2Proof.Machine

section SystemPush
variable (b : Byte) (u : Fdet × Option Word) (s : State)

@[simp] theorem systemPush_cfg : (systemPush b u s).cfg = s.cfg := rfl
@[simp] theorem systemPush_fdet : (systemPush b u s).fdet = u.1 := rfl
@[simp] theorem systemPush_out : (systemPush b u s).out = u.2 := rfl
@[simp] theorem systemPush_bc : (systemPush b u s).bc = s.bc.append s.cfg.capacity b := rfl
@[simp] theorem systemPush_dq : (systemPush b u s).dq = offer s.cfg.queueDepth s.dq u.2 := rfl
@[simp] theorem systemPush_reader : (systemPush b u s).reader = s.reader := rfl
@[simp] theorem systemPush_calls : (systemPush b u s).calls = s.calls := rfl
@[simp] theorem systemPush_ret : (systemPush b u s).ret = s.ret := rfl
@[simp] theorem systemPush_buf : (systemPush b u s).buf = s.buf := rfl
@[simp] theorem systemPush_turns : (systemPush b u s).turns = s.turns := rfl

end SystemPush

section SystemClear
variable (s : State)

@[simp] theorem systemClear_cfg : (systemClear s).cfg = s.cfg := rfl
@[simp] theorem systemClear_fdet : (systemClear s).fdet = Fdet.atReset s.cfg.winDepth := rfl
@[simp] theorem systemClear_out : (systemClear s).out = none := rfl
@[simp] theorem systemClear_bc : (systemClear s).bc = s.bc.reset := rfl
@[simp] theorem systemClear_dq : (systemClear s).dq = [] := rfl
@[simp] theorem systemClear_reader : (systemClear s).reader = s.reader := rfl
@[simp] theorem systemClear_calls : (systemClear s).calls = s.calls := rfl
@[simp] theorem systemClear_ret : (systemClear s).ret = s.ret := rfl
@[simp] theorem systemClear_buf : (systemClear s).buf = s.buf := rfl
@[simp] theorem systemClear_turns : (systemClear s).turns = s.turns := rfl

end SystemClear

section SystemIdle
variable (s : State)

@[simp] theorem systemIdle_cfg : (systemIdle s).cfg = s.cfg := rfl
@[simp] theorem systemIdle_fdet : (systemIdle s).fdet = s.fdet := rfl
@[simp] theorem systemIdle_out : (systemIdle s).out = none := rfl
@[simp] theorem systemIdle_bc : (systemIdle s).bc = s.bc := rfl
@[simp] theorem systemIdle_dq : (systemIdle s).dq = s.dq := rfl
@[simp] theorem systemIdle_reader : (systemIdle s).reader = s.reader := rfl
@[simp] theorem systemIdle_calls : (systemIdle s).calls = s.calls := rfl
@[simp] theorem systemIdle_ret : (systemIdle s).ret = s.ret := rfl
@[simp] theorem systemIdle_buf : (systemIdle s).buf = s.buf := rfl
@[simp] theorem systemIdle_turns : (systemIdle s).turns = s.turns := rfl

end SystemIdle

section Reset
variable (depth epoch : Nat) (ch : ByteChannel)

@[simp] theorem atReset_phase : (Fdet.atReset depth).phase = .lfs := rfl
@[simp] theorem atReset_seen : (Fdet.atReset depth).seen = 0 := rfl
@[simp] theorem atReset_declared : (Fdet.atReset depth).declared = 0 := rfl
@[simp] theorem atReset_win : (Fdet.atReset depth).win = List.replicate depth 0x00#8 := rfl
@[simp] theorem bcReset_mem : ch.reset.mem = [] := rfl
@[simp] theorem bcReset_wr : ch.reset.wr = 0 := rfl
@[simp] theorem bcReset_rd : ch.reset.rd = 0 := rfl
@[simp] theorem bcReset_epoch : ch.reset.epoch = ch.epoch + 1 := rfl

end Reset

section Channel
variable (capacity n : Nat) (ch : ByteChannel) (b : Byte)

@[simp] theorem append_mem : (ch.append capacity b).mem = ch.mem.write (storageIndex capacity ch.wr) b := rfl
@[simp] theorem append_wr : (ch.append capacity b).wr = ch.wr + 1 := rfl
@[simp] theorem append_epoch : (ch.append capacity b).epoch = ch.epoch := rfl
@[simp] theorem advance_mem : (ch.advance n).mem = ch.mem := rfl
@[simp] theorem advance_wr : (ch.advance n).wr = ch.wr := rfl
@[simp] theorem advance_rd : (ch.advance n).rd = ch.rd + n := rfl
@[simp] theorem advance_epoch : (ch.advance n).epoch = ch.epoch := rfl

end Channel

/-- What each operation answers, the branch of a PUSH left folded. -/
@[simp] theorem exec_reset (f v : Bool) (b : Byte) (s : State) : exec (.reset f v b) s = .next (systemClear s) := rfl
@[simp] theorem exec_flush (v : Bool) (b : Byte) (s : State) : exec (.flush v b) s = .next (systemClear s) := rfl
@[simp] theorem exec_idle (b : Byte) (s : State) : exec (.idle b) s = .next (systemIdle s) := rfl
@[simp] theorem exec_pushLfs (b : Byte) (s : State) :
    exec (.pushLfs b) s = .next (systemPush b (lfsBranch s.cfg s.fdet b) s) := rfl
@[simp] theorem exec_pushWfh (b : Byte) (s : State) :
    exec (.pushWfh b) s = .next (systemPush b (wfhBranch s.cfg s.fdet b) s) := rfl
@[simp] theorem exec_pushWfb (b : Byte) (s : State) :
    exec (.pushWfb b) s = .next (systemPush b (wfbBranch s.cfg s.fdet b) s) := rfl
@[simp] theorem exec_pushRsv (b : Byte) (s : State) :
    exec (.pushRsv b) s = .fault (.reservedPhase (encode (.pushRsv b))) := rfl

/-- The three shapes of a clock cycle that goes on. -/
theorem exec_next_cases {i : Instr} {s t : State} (h : exec i s = .next t) :
    (t = systemClear s ∧ (i.operation = .reset ∨ i.operation = .flush)) ∨
    (t = systemIdle s ∧ i.operation = .idle) ∨
    ∃ b, (i = .pushLfs b ∧ t = systemPush b (lfsBranch s.cfg s.fdet b) s) ∨
      (i = .pushWfh b ∧ t = systemPush b (wfhBranch s.cfg s.fdet b) s) ∨
      (i = .pushWfb b ∧ t = systemPush b (wfbBranch s.cfg s.fdet b) s) := by
  cases i <;> simp_all [Instr.operation]

/-- A clock cycle leaves the parameters, the consumer and the schedule alone. -/
theorem exec_keeps_environment {i : Instr} {s t : State} (h : exec i s = .next t) : SameEnvironment s t := by
  rcases exec_next_cases h with ⟨rfl, -⟩ | ⟨rfl, -⟩ | ⟨b, ⟨-, rfl⟩ | ⟨-, rfl⟩ | ⟨-, rfl⟩⟩ <;> simp [SameEnvironment]

/-- A cycle queues at most one descriptor. -/
theorem offer_length_le (depth : Nat) (dq : List Word) (out : Option Word) :
    (offer depth dq out).length ≤ dq.length + 1 := by
  cases out with
  | none => simp [offer]
  | some d => simp only [offer, enqueue]; split <;> simp

end Sys2Proof.Machine
end

