-- ==== Sys2Proof/Laws/Window.lean ====
section
/-! SUPPORT. The look-back window: what a shift leaves at each position, and the fill of a clear. -/

namespace Sys2Proof.Machine

@[simp] theorem viewAt_view_zero (win : List Byte) (b : Byte) : viewAt (effectiveView win b) 0 = b := rfl

@[simp] theorem viewAt_view_succ (win : List Byte) (b : Byte) (i : Nat) :
    viewAt (effectiveView win b) (i + 1) = viewAt win i := rfl

theorem viewAt_of_length_le {win : List Byte} {i : Nat} (h : win.length ≤ i) : viewAt win i = 0x00#8 := by
  simp [viewAt, List.getElem?_eq_none h]

theorem viewAt_take {win : List Byte} {i n : Nat} (h : i < n) : viewAt (win.take n) i = viewAt win i := by
  simp [viewAt, h]

theorem viewAt_shift {depth : Nat} {win : List Byte} {b : Byte} {i : Nat} (h : i < depth) :
    viewAt (shiftWindow depth win b) i = viewAt (effectiveView win b) i := viewAt_take h

@[simp] theorem viewAt_replicate (n i : Nat) : viewAt (List.replicate n 0x00#8) i = 0x00#8 := by
  simp only [viewAt, List.getD_eq_getElem?_getD, List.getElem?_replicate]
  split <;> rfl

@[simp] theorem length_shiftWindow (depth : Nat) (win : List Byte) (b : Byte) :
    (shiftWindow depth win b).length = min depth (win.length + 1) := by simp [shiftWindow]

/-- The shift as the spec describes it (20 R52). -/
theorem shiftWindow_shifted (depth : Nat) (win : List Byte) (b : Byte) :
    WindowShifted depth b win (shiftWindow depth win b) := by
  refine ⟨fun h => by simp [h], fun h => by simp [viewAt_shift h], fun i h0 h => ?_⟩
  obtain ⟨j, rfl⟩ : ∃ j, i = j + 1 := ⟨i - 1, by omega⟩
  simp [viewAt_shift h]

theorem newestBytes_congr {v w : List Byte} {n : Nat} (h : ∀ i < n, viewAt v i = viewAt w i) :
    newestBytes v n = newestBytes w n :=
  List.map_congr_left fun i hi => h i (List.mem_range.1 hi)

@[simp] theorem length_newestBytes (v : List Byte) (n : Nat) : (newestBytes v n).length = n := by simp [newestBytes]

end Sys2Proof.Machine
end

