-- ==== Sys2Proof/Laws/Count.lean ====
section
/-! SUPPORT. The conditions of a PUSH in plain numbers: the new count, the sync decision, the noise, the completions; and
the legality of a configuration taken apart. -/

namespace Sys2Proof.Machine

/-- What a legal policy promises (00 R7). -/
theorem policy_legal_iff (p : Policy) :
    p.legal = true ↔ 1 ≤ p.S ∧ p.S < p.H ∧ p.H ≤ 64 ∧ p.meets .genericSyncsHaveS = true ∧
      p.meets .genericRowsHaveH = true ∧ p.meets .genericLengthsInRange = true := by
  simp [Policy.legal, ConfigCondition.all, Policy.meets]

theorem legal_policy {cfg : Config} (h : cfg.legal = true) : cfg.policy.legal = true := by
  simp only [Config.legal, Bool.and_eq_true] at h
  exact h.1.1

theorem legal_capacity {cfg : Config} (h : cfg.legal = true) : isPowerOfTwo cfg.capacity = true := by
  simp only [Config.legal, Config.envLegal, Bool.and_eq_true] at h
  exact h.1.2.2

theorem legal_depth {cfg : Config} (h : cfg.legal = true) : 0 < cfg.queueDepth := by
  simp only [Config.legal, Bool.and_eq_true, decide_eq_true_eq] at h
  exact h.2

theorem legal_bounds {cfg : Config} (h : cfg.legal = true) : 1 ≤ cfg.S ∧ cfg.S < cfg.H ∧ cfg.H ≤ 64 := by
  have := (policy_legal_iff _).1 (legal_policy h)
  exact ⟨this.1, this.2.1, this.2.2.1⟩

/-- A policy has a first failing condition exactly when it is not legal. -/
theorem firstFailure_eq_none_iff (p : Policy) : p.firstFailure = none ↔ p.legal = true := by
  simp [Policy.firstFailure, Policy.legal, List.find?_eq_none, List.all_eq_true]

theorem elaborated_legal {cfg : Config} (h : cfg.legal = true) (k : Host.Outcome State Fault Refusal) :
    elaborated cfg k = k := by
  have h1 := (firstFailure_eq_none_iff _).2 (legal_policy h)
  have h2 : cfg.envLegal = true := by
    simp only [Config.legal, Bool.and_eq_true] at h
    exact h.1.2
  simp [elaborated, h1, h2, legal_depth h]

/-- A configuration with a step is legal. -/
theorem elaborated_next {cfg : Config} {k : Host.Outcome State Fault Refusal} {t : State}
    (h : elaborated cfg k = .next t) : cfg.legal = true ∧ k = .next t := by
  unfold elaborated at h
  split at h
  · cases h
  · rename_i hf
    split at h
    · split at h
      · rename_i he hq
        exact ⟨by simp [Config.legal, (firstFailure_eq_none_iff _).1 hf, he, hq], h⟩
      · cases h
    · cases h

theorem toNat_nextCount (f : Fdet) : (nextCount f).toNat = (f.seen.toNat + 1) % 2 ^ 32 := by
  simp [nextCount]

theorem toNat_nextCount_of_lt {f : Fdet} (h : f.seen.toNat + 1 < 2 ^ 32) : (nextCount f).toNat = f.seen.toNat + 1 := by
  rw [toNat_nextCount, Nat.mod_eq_of_lt h]

theorem toNat_syncLengthWord {cfg : Config} (h : cfg.legal = true) : (syncLengthWord cfg).toNat = cfg.S := by
  have := legal_bounds h
  simp [syncLengthWord]
  omega

theorem toNat_headerLengthWord {cfg : Config} (h : cfg.legal = true) : (headerLengthWord cfg).toNat = cfg.H := by
  have := legal_bounds h
  simp [headerLengthWord]
  omega

/-- The sync decision in numbers (40 R106). -/
theorem syncHit_iff {cfg : Config} (h : cfg.legal = true) (f : Fdet) (b : Byte) :
    syncHit cfg f b = true ↔ detectSync cfg.policy (effectiveView f.win b) = true ∧
      (cfg.syncQual = .literal ∨ cfg.S ≤ (nextCount f).toNat) := by
  simp [syncHit, syncMatch, BitVec.le_def, toNat_syncLengthWord h]

theorem headerComplete_iff {cfg : Config} (h : cfg.legal = true) (f : Fdet) :
    headerComplete cfg f = true ↔ (nextCount f).toNat = cfg.H := by
  simp [headerComplete, ← BitVec.toNat_inj, toNat_headerLengthWord h]

theorem frameComplete_iff (f : Fdet) : frameComplete f = true ↔ (nextCount f).toNat = f.declared.toNat := by
  simp [frameComplete, ← BitVec.toNat_inj]

theorem toNat_noiseCount {cfg : Config} (h : cfg.legal = true) {f : Fdet} (hn : cfg.S ≤ (nextCount f).toNat) :
    (noiseCount cfg f).toNat = (nextCount f).toNat - cfg.S := by
  rw [noiseCount, BitVec.toNat_sub_of_le (by rw [BitVec.le_def, toNat_syncLengthWord h]; exact hn), toNat_syncLengthWord h]

/-- The noise of a straddling sync wraps (40 R109). -/
theorem toNat_noiseCount_straddle {cfg : Config} (h : cfg.legal = true) {f : Fdet} (hn : (nextCount f).toNat < cfg.S) :
    (noiseCount cfg f).toNat = 2 ^ 32 - (cfg.S - (nextCount f).toNat) := by
  have := legal_bounds h
  rw [noiseCount, BitVec.toNat_sub, toNat_syncLengthWord h, Nat.mod_eq_of_lt] <;> omega

theorem toNat_neg32 {x : Word} (h : x ≠ 0) : (neg32 x).toNat = 2 ^ 32 - x.toNat := by
  have : x.toNat ≠ 0 := fun h0 => h (BitVec.eq_of_toNat_eq (by simpa using h0))
  have := x.isLt
  simp [neg32]
  omega

/-- `neg32(x) = 0` only for x = 0 (42 R174). -/
theorem neg32_ne_zero {x : Word} (h : x ≠ 0) : neg32 x ≠ 0 := by
  intro h0
  have h1 := toNat_neg32 h
  have := x.isLt
  rw [h0] at h1
  simp at h1
  omega

theorem asI32_eq (d : Word) : asI32 d = if d.toNat < 2 ^ 31 then (d.toNat : Int) else (d.toNat : Int) - 2 ^ 32 := by
  rw [asI32, BitVec.toInt_eq_toNat_cond]
  split <;> split <;> omega

/-- The discard descriptor of 1 to 2^31 noise bytes reads as minus that number (42 R172). -/
theorem asI32_discard {x : Word} (h0 : x ≠ 0) (h : x.toNat ≤ 2 ^ 31) : asI32 (discardDescriptor x) = -(x.toNat : Int) := by
  have : x.toNat ≠ 0 := fun h1 => h0 (BitVec.eq_of_toNat_eq (by simpa using h1))
  rw [asI32_eq, discardDescriptor, toNat_neg32 h0]
  split <;> omega

theorem asI32_of_lt {d : Word} (h : d.toNat < 2 ^ 31) : asI32 d = d.toNat := by
  rw [asI32_eq, if_pos h]

end Sys2Proof.Machine
end

