-- ==== Sys2Proof/Laws/Decode.lean ====
section
/-! SUPPORT. The fields of an input vector: each reads back what was put in, and a vector is its fields. -/

namespace Sys2Proof

section Fields
variable (r f v : Bool) (b : Byte)

@[simp] theorem ivRst_inputVector : ivRst (inputVector r f v b) = r := by
  simp only [ivRst, inputVector, BitVec.getLsbD_append, BitVec.getLsbD_ofBool]
  simp

@[simp] theorem ivFlush_inputVector : ivFlush (inputVector r f v b) = f := by
  simp only [ivFlush, inputVector, BitVec.getLsbD_append, BitVec.getLsbD_ofBool]
  simp

@[simp] theorem ivValid_inputVector : ivValid (inputVector r f v b) = v := by
  simp only [ivValid, inputVector, BitVec.getLsbD_append, BitVec.getLsbD_ofBool]
  simp

@[simp] theorem ivByte_inputVector : ivByte (inputVector r f v b) = b := by
  refine BitVec.eq_of_getLsbD_eq fun i hi => ?_
  simp only [ivByte, inputVector, BitVec.getLsbD_extractLsb', BitVec.getLsbD_append]
  simp [hi]

end Fields

/-- A vector is its four fields. -/
theorem inputVector_fields (iv : InputVec) : inputVector (ivRst iv) (ivFlush iv) (ivValid iv) (ivByte iv) = iv := by
  refine BitVec.eq_of_getLsbD_eq fun i hi => ?_
  simp only [inputVector, ivRst, ivFlush, ivValid, ivByte, BitVec.getLsbD_append, BitVec.getLsbD_extractLsb',
    BitVec.getLsbD_ofBool]
  rcases Nat.lt_or_ge i 8 with h | h
  · simp [h]
  · obtain rfl | rfl | rfl : i = 8 ∨ i = 9 ∨ i = 10 := by omega
    all_goals simp

/-- The phase encoding loses nothing (30 R72). -/
@[simp] theorem ofBits_toBits (p : Phase) : Phase.ofBits p.toBits = p := by cases p <;> rfl

end Sys2Proof
end

