-- ==== Sys2Proof/Laws/PerInstr.lean ====
section
/-! SUPPORT. Per instruction: an operation's vector belongs to its row of 30 R74's table, and to no other row. -/

namespace Sys2Proof.Laws.EncodingMatchesRow

/-- The rows of the table that match the operation's vector are those of its own operation. -/
def Statement (i : Instr) : Prop := ∀ r ∈ opTable, r.matchesVec (encode i) = decide (r.op = i.operation)

theorem reset (f v : Bool) (b : Byte) : Statement (.reset f v b) := by
  revert f v b; unfold Statement; decide +kernel

theorem flush (v : Bool) (b : Byte) : Statement (.flush v b) := by
  revert v b; unfold Statement; decide +kernel

/-- The one fact behind the four PUSH branches. -/
theorem push_vector (b : Byte) : ∀ r ∈ opTable, r.matchesVec (inputVector false false true b) = decide (r.op = .push) := by
  revert b; decide +kernel

theorem pushLfs (b : Byte) : Statement (.pushLfs b) := push_vector b

theorem pushWfh (b : Byte) : Statement (.pushWfh b) := push_vector b

theorem pushWfb (b : Byte) : Statement (.pushWfb b) := push_vector b

theorem pushRsv (b : Byte) : Statement (.pushRsv b) := push_vector b

theorem idle (b : Byte) : Statement (.idle b) := by
  revert b; unfold Statement; decide +kernel

end Sys2Proof.Laws.EncodingMatchesRow
end

