-- ==== Sys2Proof/Laws/Policy.lean ====
section
/-! SUPPORT. The length decoders in numbers. -/

namespace Sys2Proof.Machine

theorem toNat_decodeA (view : List Byte) :
    (decodeBodyLengthA view).toNat = (viewAt view 1).toNat + 256 * (viewAt view 0).toNat + 8 := by
  have h0 := (viewAt view 0).isLt
  have h1 := (viewAt view 1).isLt
  simp only [decodeBodyLengthA, BitVec.toNat_add, BitVec.truncate_eq_setWidth, BitVec.toNat_setWidth, BitVec.toNat_append]
  rw [Nat.shiftLeft_eq, Nat.mul_comm, ← Nat.two_pow_add_eq_or_of_lt h1]
  simp
  omega

theorem toNat_decodeB (view : List Byte) : (decodeBodyLengthB view).toNat = (viewAt view 0).toNat + 6 := by
  have h0 := (viewAt view 0).isLt
  simp [decodeBodyLengthB]
  omega

theorem lengthInContract_iff (h : Nat) (w : Word) : lengthInContract h w = true ↔ h < w.toNat ∧ w.toNat ≤ 2 ^ 31 - 1 := by
  simp [lengthInContract]

/-- A value a lookup finds stands in a row. -/
theorem mem_of_lookup {k : List Byte} {w : Word} {rows : List (List Byte × Word)} (h : rows.lookup k = some w) :
    ∃ r ∈ rows, r.2 = w := by
  induction rows with
  | nil => cases h
  | cons r rows ih =>
    rw [List.lookup_cons] at h
    split at h
    · exact ⟨r, by simp, by simpa using h⟩
    · obtain ⟨x, hx, he⟩ := ih h
      exact ⟨x, by simp [hx], he⟩

end Sys2Proof.Machine
end

