-- ==== Sys2Proof/Laws/Storage.lean ====
section
/-! SUPPORT. Byte storage and the ByteChannel: reads after writes, the canonical form, and the append. -/

namespace Sys2Proof.Machine

/-! ## Byte storage -/

@[simp] theorem read?_nil (a : Nat) : Memory.read? [] a = none := rfl

theorem read?_cons (c : Host.Cell) (m : Memory) (a : Nat) :
    Memory.read? (c :: m) a = if c.1 = a then some c.2 else Memory.read? m a := rfl

theorem write_cons (c : Host.Cell) (m : Memory) (a : Nat) (b : Byte) :
    Memory.write (c :: m) a b =
      if a < c.1 then (a, b) :: c :: m else if a = c.1 then (a, b) :: m else c :: Memory.write m a b := rfl

/-- A read after a write to the same place gives the value written. -/
@[simp] theorem read?_write_same (m : Memory) (a : Nat) (b : Byte) : (m.write a b).read? a = some b := by
  induction m with
  | nil => simp [Memory.write, Memory.read?]
  | cons c m ih =>
    rw [write_cons]
    split
    · simp [read?_cons]
    · split
      · simp [read?_cons]
      · simp_all [read?_cons, eq_comm]

/-- A write leaves every other place alone. -/
theorem read?_write_other (m : Memory) {a x : Nat} (b : Byte) (h : x ≠ a) : (m.write a b).read? x = m.read? x := by
  induction m with
  | nil => simp [Memory.write, Memory.read?, h.symm]
  | cons c m ih =>
    rw [write_cons]
    split
    · simp [read?_cons, h.symm]
    · split
      · simp_all [read?_cons, eq_comm]
      · simp_all [read?_cons]

theorem mem_write {m : Memory} {a : Nat} {b : Byte} {c : Host.Cell} (h : c ∈ m.write a b) : c = (a, b) ∨ c ∈ m := by
  induction m with
  | nil => simpa [Memory.write] using h
  | cons d m ih =>
    rw [write_cons] at h
    split at h
    · simpa using h
    · split at h
      · rcases List.mem_cons.1 h with h | h <;> simp [h]
      · rcases List.mem_cons.1 h with h | h
        · simp [h]
        · rcases ih h with h | h <;> simp [h]

/-- Every memory operation keeps the canonical form: the one that writes is `write`. -/
theorem write_wf {m : Memory} (a : Nat) (b : Byte) (h : m.wf) : (m.write a b).wf := by
  induction m with
  | nil => simp [Memory.wf, Memory.write]
  | cons c m ih =>
    have hc := List.pairwise_cons.1 h
    rw [write_cons]
    split
    · rename_i hlt
      refine List.pairwise_cons.2 ⟨fun d hd => ?_, h⟩
      rcases List.mem_cons.1 hd with rfl | hd
      · exact hlt
      · exact hlt.trans (hc.1 d hd)
    · split
      · rename_i heq
        exact List.pairwise_cons.2 ⟨fun d hd => heq ▸ hc.1 d hd, hc.2⟩
      · rename_i h1 h2
        refine List.pairwise_cons.2 ⟨fun d hd => ?_, ih hc.2⟩
        rcases mem_write hd with rfl | hd
        · change c.1 < a
          omega
        · exact hc.1 d hd

/-! ## Addresses -/

theorem powerOfTwo_exists {c : Nat} (h : isPowerOfTwo c = true) : ∃ k, c = 2 ^ k := ⟨c.log2, by simpa [isPowerOfTwo] using h⟩

theorem isPowerOfTwo_iff {c : Nat} : isPowerOfTwo c = true ↔ ∃ k, c = 2 ^ k := by
  refine ⟨powerOfTwo_exists, ?_⟩
  rintro ⟨k, rfl⟩
  simp [isPowerOfTwo]

/-- The mask is a remainder when C is a power of two. -/
theorem storageIndex_eq_mod {c : Nat} (h : isPowerOfTwo c = true) (x : Nat) : storageIndex c x = x % c := by
  obtain ⟨k, rfl⟩ := powerOfTwo_exists h
  exact Nat.and_two_pow_sub_one_eq_mod x k

theorem powerOfTwo_pos {c : Nat} (h : isPowerOfTwo c = true) : 0 < c := by
  obtain ⟨k, rfl⟩ := powerOfTwo_exists h
  exact Nat.two_pow_pos k

theorem storageIndex_lt {c : Nat} (h : isPowerOfTwo c = true) (x : Nat) : storageIndex c x < c := by
  rw [storageIndex_eq_mod h]
  exact Nat.mod_lt _ (powerOfTwo_pos h)

/-- Two cursors less than C apart name different places. -/
theorem storageIndex_ne {c x y : Nat} (h : isPowerOfTwo c = true) (hxy : x < y) (hyx : y - x < c) :
    storageIndex c x ≠ storageIndex c y := by
  rw [storageIndex_eq_mod h, storageIndex_eq_mod h]
  intro he
  have hd : c ∣ y - x := (Nat.modEq_iff_dvd' hxy.le).1 he
  have := Nat.le_of_dvd (by omega) hd
  omega

/-! ## The ByteChannel -/

theorem append_rd (c : Nat) (ch : ByteChannel) (b : Byte) :
    (ch.append c b).rd = if ch.wr + 1 - ch.rd > c then ch.wr + 1 - c else ch.rd := rfl

/-- The append as the spec describes it (43 R192). -/
theorem append_appended (c : Nat) (ch : ByteChannel) (b : Byte) : Appended c b ch (ch.append c b) := by
  refine ⟨by simp, fun a ha => by simp [read?_write_other _ _ ha], rfl, fun h => ?_, fun h => ?_, rfl⟩
  · rw [append_rd, if_neg (by omega)]
  · rw [append_rd, if_pos h]

/-- An append keeps 43 R191's invariant. -/
theorem append_inv {c : Nat} {ch : ByteChannel} (b : Byte) (hc : isPowerOfTwo c = true) (h : ch.Inv c) :
    (ch.append c b).Inv c := by
  obtain ⟨h1, h2, h3, h4, h5⟩ := h
  have hpos := powerOfTwo_pos hc
  refine ⟨?_, ?_, write_wf _ _ h3, fun x hx => ?_, fun k hk => ?_⟩
  · rw [append_rd, append_wr]
    split <;> omega
  · rw [append_rd, append_wr]
    split <;> omega
  · rcases mem_write hx with rfl | hx
    · exact storageIndex_lt hc _
    · exact h4 x hx
  · rw [append_mem]
    by_cases he : storageIndex c ((ch.append c b).rd + k) = storageIndex c ch.wr
    · simp [he]
    · rw [read?_write_other _ _ he]
      rw [append_rd, append_wr] at hk
      rw [append_rd] at he ⊢
      split at hk
      · rename_i hover
        rw [if_pos hover] at he ⊢
        have hk' : ch.wr + 1 - c + k ≠ ch.wr := fun hh => he (by rw [hh])
        have := h5 (k + 1) (by omega)
        rwa [show ch.rd + (k + 1) = ch.wr + 1 - c + k by omega] at this
      · rename_i hover
        rw [if_neg hover] at he ⊢
        have hk' : ch.rd + k ≠ ch.wr := fun hh => he (by rw [hh])
        exact h5 k (by omega)

theorem advance_inv {c n : Nat} {ch : ByteChannel} (h : ch.Inv c) (hn : n ≤ ch.unread) : (ch.advance n).Inv c := by
  obtain ⟨h1, h2, h3, h4, h5⟩ := h
  simp only [ByteChannel.unread] at hn
  refine ⟨by simp; omega, by simp; omega, h3, h4, fun k hk => ?_⟩
  simp only [advance_rd, advance_wr, advance_mem] at hk ⊢
  have := h5 (n + k) (by omega)
  rwa [← Nat.add_assoc] at this

theorem reset_inv (c : Nat) (ch : ByteChannel) : ch.reset.Inv c := by
  simp [ByteChannel.Inv, Memory.wf]

@[simp] theorem bytesFrom_zero (c : Nat) (ch : ByteChannel) (x : Nat) : ch.bytesFrom c x 0 = [] := rfl
@[simp] theorem bytesFrom_succ (c : Nat) (ch : ByteChannel) (x n : Nat) :
    ch.bytesFrom c x (n + 1) = ch.byteAt c x :: ch.bytesFrom c (x + 1) n := rfl

@[simp] theorem length_bytesFrom (c : Nat) (ch : ByteChannel) (x n : Nat) : (ch.bytesFrom c x n).length = n := by
  induction n generalizing x with
  | zero => rfl
  | succ n ih => simp [ih]

theorem bytesFrom_add (c : Nat) (ch : ByteChannel) (x n k : Nat) :
    ch.bytesFrom c x (n + k) = ch.bytesFrom c x n ++ ch.bytesFrom c (x + n) k := by
  induction n generalizing x with
  | zero => simp
  | succ n ih => rw [Nat.add_right_comm n 1 k, bytesFrom_succ, bytesFrom_succ, ih, Nat.add_right_comm x 1 n]; rfl

/-- The place an append writes holds the byte afterwards. -/
theorem byteAt_append_same (c : Nat) (ch : ByteChannel) (b : Byte) : (ch.append c b).byteAt c ch.wr = b := by
  simp [ByteChannel.byteAt]

theorem byteAt_append_other {c x : Nat} {ch : ByteChannel} (b : Byte) (hc : isPowerOfTwo c = true) (hx : x < ch.wr)
    (hd : ch.wr - x < c) : (ch.append c b).byteAt c x = ch.byteAt c x := by
  simp [ByteChannel.byteAt, read?_write_other _ _ (storageIndex_ne hc hx hd)]

theorem bytesFrom_append {c : Nat} {ch : ByteChannel} (b : Byte) (hc : isPowerOfTwo c = true) (x n : Nat)
    (hx : x + n ≤ ch.wr) (hd : ch.wr - x < c) : (ch.append c b).bytesFrom c x n = ch.bytesFrom c x n := by
  induction n generalizing x with
  | zero => rfl
  | succ n ih =>
    rw [bytesFrom_succ, bytesFrom_succ, byteAt_append_other b hc (by omega) hd, ih (x + 1) (by omega) (by omega)]

end Sys2Proof.Machine
end

