-- ==== Sys2Proof/Laws/Step.lean ====
section
/-! SUPPORT. What a step, a turn of the consumer and a PUSH branch can do, each said once; runs of cycles taken apart. -/

namespace Sys2Proof.Machine

/-! ## The PUSH branches -/

/-- PUSH.LFS on a sync: WFH with the sync credited; silent when n = S. -/
theorem lfsBranch_hit {cfg : Config} {f : Fdet} {b : Byte} (h : syncHit cfg f b = true) :
    lfsBranch cfg f b =
      (⟨.wfh, syncLengthWord cfg, f.declared, shiftWindow cfg.winDepth f.win b⟩,
        if noiseCount cfg f = 0#32 then none else some (discardDescriptor (noiseCount cfg f))) := by
  simp [lfsBranch, h]

/-- PUSH.LFS without a sync: one more byte counted. -/
theorem lfsBranch_miss {cfg : Config} {f : Fdet} {b : Byte} (h : syncHit cfg f b = false) :
    lfsBranch cfg f b = ({ f with seen := nextCount f, win := shiftWindow cfg.winDepth f.win b }, none) := by
  simp [lfsBranch, h]

/-- PUSH.WFH at the header's last byte. -/
theorem wfhBranch_complete {cfg : Config} {f : Fdet} {b : Byte} (h : headerComplete cfg f = true) :
    wfhBranch cfg f b =
      (⟨.wfb, nextCount f, decodeBodyLength cfg.policy (effectiveView f.win b), shiftWindow cfg.winDepth f.win b⟩,
        none) := by
  simp [wfhBranch, h]

/-- PUSH.WFH inside the header. -/
theorem wfhBranch_open {cfg : Config} {f : Fdet} {b : Byte} (h : headerComplete cfg f = false) :
    wfhBranch cfg f b = ({ f with seen := nextCount f, win := shiftWindow cfg.winDepth f.win b }, none) := by
  simp [wfhBranch, h]

/-- PUSH.WFB at the frame's last byte. -/
theorem wfbBranch_complete {cfg : Config} {f : Fdet} {b : Byte} (h : frameComplete f = true) :
    wfbBranch cfg f b =
      (⟨.lfs, 0#32, f.declared, shiftWindow cfg.winDepth f.win b⟩, some (messageDescriptor f.declared)) := by
  simp [wfbBranch, h]

/-- PUSH.WFB inside the frame. -/
theorem wfbBranch_open {cfg : Config} {f : Fdet} {b : Byte} (h : frameComplete f = false) :
    wfbBranch cfg f b = ({ f with seen := nextCount f, win := shiftWindow cfg.winDepth f.win b }, none) := by
  simp [wfbBranch, h]

/-- The window shifts in every branch (40 R104). -/
theorem branch_win (cfg : Config) (f : Fdet) (b : Byte) :
    (lfsBranch cfg f b).1.win = shiftWindow cfg.winDepth f.win b ∧
    (wfhBranch cfg f b).1.win = shiftWindow cfg.winDepth f.win b ∧
    (wfbBranch cfg f b).1.win = shiftWindow cfg.winDepth f.win b := by
  refine ⟨?_, ?_, ?_⟩
  · unfold lfsBranch; split <;> rfl
  · unfold wfhBranch; split <;> rfl
  · unfold wfbBranch; split <;> rfl

/-- The system's part of every PUSH, once the window shifts (43 R199). -/
theorem systemPush_pushed (b : Byte) (u : Fdet × Option Word) (s : State)
    (hw : u.1.win = shiftWindow s.cfg.winDepth s.fdet.win b) : SystemPushed b u.2 s (systemPush b u s) := by
  refine ⟨by simp [SameEnvironment], rfl, ?_, append_appended _ _ _, ?_⟩
  · rw [systemPush_fdet, hw]
    exact shiftWindow_shifted _ _ _
  · rw [systemPush_dq]
    cases u.2 with
    | none => rfl
    | some d => exact ⟨fun h => if_pos h, fun h => if_neg (by omega)⟩

/-! ## The consumer -/

/-- Everything a turn of the consumer can do when it goes on. -/
theorem consumerTurn_next_cases {late : Bool} {s t : State} (h : consumerTurn late s = .next t) :
    t = s ∨
    (∃ cap rest, s.reader = .idle ∧ s.calls = cap :: rest ∧ t = { s with calls := rest, reader := .waiting cap }) ∨
    (∃ cap d rest, s.reader = .waiting cap ∧ s.dq = d :: rest ∧ t = { s with dq := rest, reader := .holding cap d }) ∨
    (∃ cap, s.reader = .waiting cap ∧ s.dq = [] ∧ late = true ∧ t = { s with reader := .idle, ret := some 0 }) ∨
    (∃ cap d, s.reader = .holding cap d ∧ descriptorBytes d ≤ s.bc.unread ∧ discards cap d = true ∧
      t = { s with bc := s.bc.advance (descriptorBytes d), reader := .waiting cap }) ∨
    (∃ cap d, s.reader = .holding cap d ∧ descriptorBytes d ≤ s.bc.unread ∧ discards cap d = false ∧
      t = { s with bc := s.bc.advance (descriptorBytes d), reader := .idle, ret := some (descriptorBytes d),
                   buf := s.bc.bytesFrom s.cfg.capacity s.bc.rd (descriptorBytes d) }) := by
  unfold consumerTurn at h
  split at h
  · rename_i hr
    unfold enterNext at h
    split at h
    · rename_i cap rest hc
      cases h
      exact .inr (.inl ⟨cap, rest, hr, hc, rfl⟩)
    · cases h
      exact .inl rfl
  · rename_i cap hr
    unfold dequeueOrTimeout at h
    split at h
    · rename_i d rest hd
      cases h
      exact .inr (.inr (.inl ⟨cap, d, rest, hr, hd, rfl⟩))
    · rename_i hd
      cases late
      · cases h
        exact .inl rfl
      · cases h
        exact .inr (.inr (.inr (.inl ⟨cap, hr, hd, rfl, rfl⟩)))
  · rename_i cap d hr
    unfold finishDescriptor at h
    split at h
    · cases h
    · rename_i hu
      split at h
      · rename_i hd
        cases h
        exact .inr (.inr (.inr (.inr (.inl ⟨cap, d, hr, by omega, hd, rfl⟩))))
      · rename_i hd
        cases h
        exact .inr (.inr (.inr (.inr (.inr ⟨cap, d, hr, by omega, by simpa using hd, rfl⟩))))

/-- A turn of the consumer goes on, or stops by an underrun while a descriptor is held (43 R205). -/
theorem consumerTurn_total (late : Bool) (s : State) :
    (∃ t, consumerTurn late s = .next t) ∨
    ∃ cap d, s.reader = .holding cap d ∧ s.bc.unread < descriptorBytes d ∧
      consumerTurn late s = .fault (.envUnderrun (descriptorBytes d) s.bc.unread) := by
  cases hr : s.reader with
  | idle =>
    cases hc : s.calls <;> simp only [consumerTurn, hr, enterNext, hc] <;> exact .inl ⟨_, rfl⟩
  | waiting cap =>
    cases hd : s.dq <;> simp only [consumerTurn, hr, dequeueOrTimeout, hd] <;> exact .inl ⟨_, rfl⟩
  | holding cap d =>
    by_cases hu : s.bc.unread < descriptorBytes d
    · exact .inr ⟨cap, d, rfl, hu, by simp [consumerTurn, hr, finishDescriptor, hu]⟩
    · left
      cases hd : discards cap d <;> simp only [consumerTurn, hr, finishDescriptor, hu, hd] <;> exact ⟨_, rfl⟩

/-! ## The step -/

section Turns
variable {s : State} (hl : s.cfg.legal = true)
include hl

/-- A scheduled clock turn is a clock cycle. -/
theorem step_clock {iv : InputVec} {rest : List Turn} (ht : s.turns = .clock iv :: rest) :
    step s = clockCycle iv { s with turns := rest } := by
  simp [step, elaborated_legal hl, takeTurn, ht, clockCycle]

/-- A scheduled consumer turn is one of the consumer's critical sections. -/
theorem step_consumer {late : Bool} {rest : List Turn} (ht : s.turns = .consumer late :: rest) :
    step s = consumerTurn late { s with turns := rest } := by
  simp [step, elaborated_legal hl, takeTurn, ht]

/-- With nothing scheduled, between calls: an IDLE cycle. -/
theorem step_unscheduled_idle (ht : s.turns = []) (hr : s.reader = .idle) : step s = .next (systemIdle s) := by
  have hi : decode s.fdet.phase 0x000#11 = .idle 0x00#8 := by cases s.fdet.phase <;> decide
  simp [step, elaborated_legal hl, takeTurn, ht, hr, unscheduledTurn, hi]

/-- With nothing scheduled, inside a call: the consumer's turn, its deadline passed. -/
theorem step_unscheduled_call (ht : s.turns = []) (hr : s.reader ≠ .idle) : step s = consumerTurn true s := by
  cases hc : s.reader <;> simp_all [step, elaborated_legal hl, takeTurn, unscheduledTurn]

end Turns

/-- Everything a step can do when it goes on: a clock cycle, an IDLE cycle for want of a turn, or a consumer turn,
scheduled or for want of a turn inside a call. -/
theorem step_next_cases {s t : State} (h : step s = .next t) :
    s.cfg.legal = true ∧
    ((∃ iv rest, s.turns = .clock iv :: rest ∧ exec (decode s.fdet.phase iv) { s with turns := rest } = .next t) ∨
      (s.turns = [] ∧ s.reader = .idle ∧ t = systemIdle s) ∨
      ∃ late rest, (s.turns = .consumer late :: rest ∨ s.turns = [] ∧ s.reader ≠ .idle ∧ late = true ∧ rest = []) ∧
        consumerTurn late { s with turns := rest } = .next t) := by
  have hl := (elaborated_next h).1
  refine ⟨hl, ?_⟩
  cases ht : s.turns with
  | nil =>
    by_cases hr : s.reader = .idle
    · rw [step_unscheduled_idle hl ht hr] at h
      cases h
      exact .inr (.inl ⟨rfl, hr, rfl⟩)
    · rw [step_unscheduled_call hl ht hr] at h
      refine .inr (.inr ⟨true, [], .inr ⟨rfl, hr, rfl, rfl⟩, ?_⟩)
      rwa [← ht]
  | cons u rest =>
    cases u with
    | clock iv => exact .inl ⟨iv, rest, rfl, (step_clock hl ht).symm.trans h⟩
    | consumer late => exact .inr (.inr ⟨late, rest, .inl rfl, (step_consumer hl ht).symm.trans h⟩)

/-! ## Runs of steps -/

@[simp] theorem runSteps_zero (s : State) : runSteps 0 s = some s := rfl

theorem runSteps_succ {n : Nat} {s t : State} (h : step s = .next t) : runSteps (n + 1) s = runSteps n t := by
  simp [runSteps, h]

/-! ## Runs of cycles -/

@[simp] theorem runCycles_nil (s : State) : runCycles [] s = some (s, []) := rfl

theorem runCycles_cons {iv : InputVec} {s t : State} (rest : List InputVec) (h : clockCycle iv s = .next t) :
    runCycles (iv :: rest) s = (runCycles rest t).map fun r => (r.1, t.out.toList ++ r.2) := by
  simp [runCycles, h]

/-- A run that ends has ended its first cycle and the rest. -/
theorem runCycles_cons_some {iv : InputVec} {rest : List InputVec} {s t : State} {ds : List Word}
    (h : runCycles (iv :: rest) s = some (t, ds)) :
    ∃ u es, clockCycle iv s = .next u ∧ runCycles rest u = some (t, es) ∧ ds = u.out.toList ++ es := by
  unfold runCycles at h
  split at h
  · rename_i u hu
    obtain ⟨⟨t', es⟩, hr, he⟩ := Option.map_eq_some_iff.1 h
    cases he
    exact ⟨u, es, hu, hr, rfl⟩
  · cases h
  · cases h

/-- A PUSH cycle runs the branch of the phase. -/
theorem clockCycle_push (b : Byte) (s : State) : clockCycle (pushVector b) s = exec (pushBranch s.fdet.phase b) s := by
  simp [clockCycle, pushVector, decode]

end Sys2Proof.Machine
end

