-- ==== Sys2Proof/Tests/Slice0.lean ====
section
/-! SUPPORT. Tests. Expected results come from the tables of spec/95_test_vectors.md (V1 to V86), from spec/30_encoding.md R74
and R78, and from hand calculation with the rules; then one witness for the hypotheses of every statement. -/

namespace Sys2Proof.Tests

open Sys2Proof.Machine

/-! ## Helpers -/

/-- The systems of spec/95's vectors: C = 64, QD = 10. -/
def system (p : Policy) (q : SyncQual) : Config := ⟨p, q, true, 64, 10⟩

/-- Policy A, QUALIFIED. -/
def sysA : Config := system .a .qualified

/-- Policy B, QUALIFIED. -/
def sysB : Config := system .b .qualified

/-- A GENERIC policy: the sync is the byte 0x7E, the header 2 bytes, every frame 5 bytes but those of length byte 0x09. -/
def generic1 : GenericPolicy := ⟨1, 2, [[0x7E#8]], [([0x09#8, 0x7E#8], 9#32)], 5#32⟩

/-- A launch state with FDET's registers set. -/
def fdetState (cfg : Config) (p : Phase) (seen declared : Word) (win : List Byte) : State :=
  { State.launch cfg with fdet := ⟨p, seen, declared, win⟩ }

/-- The state an outcome goes on to. -/
def nextState? : Host.Outcome State Fault Refusal → Option State
  | .next s => some s
  | .fault _ => none
  | .refused _ => none

/-- The fault an outcome stops with. -/
def fault? : Host.Outcome State Fault Refusal → Option Fault
  | .next _ => none
  | .fault f => some f
  | .refused _ => none

/-- FDET's registers and the descriptor after an outcome. -/
def result? (o : Host.Outcome State Fault Refusal) : Option (Fdet × Option Word) :=
  (nextState? o).map fun s => (s.fdet, s.out)

/-! ## Well-formedness: each check refuses an ill-formed term -/

theorem test_wf_lfs_only_in_lfs : (Instr.pushLfs 0x11#8).wfIn .wfh = false := by decide
theorem test_wf_wfh_only_in_wfh : (Instr.pushWfh 0x11#8).wfIn .wfb = false := by decide
theorem test_wf_wfb_only_in_wfb : (Instr.pushWfb 0x11#8).wfIn .lfs = false := by decide
theorem test_wf_rsv_only_in_rsv : (Instr.pushRsv 0x11#8).wfIn .lfs = false := by decide
theorem test_wf_sync_length_positive :
    (Policy.generic { generic1 with s := 0, syncs := [] }).firstFailure = some .syncLengthPositive := by decide
theorem test_wf_sync_shorter_than_header :
    (Policy.generic { generic1 with h := 1 }).firstFailure = some .syncShorterThanHeader := by decide
theorem test_wf_header_at_most_64 :
    (Policy.generic { generic1 with h := 65, lengths := [], lengthDefault := 100#32 }).firstFailure =
      some .headerAtMost64 := by decide
theorem test_wf_generic_syncs :
    (Policy.generic { generic1 with syncs := [[0x7E#8, 0x7E#8]] }).firstFailure = some .genericSyncsHaveS := by decide
theorem test_wf_generic_rows :
    (Policy.generic { generic1 with lengths := [([0x7E#8], 9#32)] }).firstFailure = some .genericRowsHaveH := by decide
theorem test_wf_generic_length_not_above_header :
    (Policy.generic { generic1 with lengthDefault := 2#32 }).firstFailure = some .genericLengthsInRange := by decide
theorem test_wf_generic_length_above_i32 :
    (Policy.generic { generic1 with lengthDefault := 0x80000000#32 }).firstFailure = some .genericLengthsInRange := by decide
theorem test_wf_capacity_power_of_two : ({ sysA with capacity := 48 } : Config).legal = false := by decide
theorem test_wf_storage_bound : ({ sysA with storageBound := false } : Config).legal = false := by decide
theorem test_wf_queue_depth : ({ sysA with queueDepth := 0 } : Config).legal = false := by decide
theorem test_wf_legal : [sysA, sysB, system (.generic generic1) .literal, Config.default].all Config.legal = true := by decide

/-! ## Decode: words written out bit by bit from 30 R70 and R74 -/

theorem test_decode_reset : decode .rsv 0b1_0_1_01100010#11 = .reset false true 0x62#8 := by decide
theorem test_decode_flush : decode .wfh 0b0_1_1_01100010#11 = .flush true 0x62#8 := by decide
theorem test_decode_push_lfs : decode .lfs 0b0_0_1_10110101#11 = .pushLfs 0xB5#8 := by decide
theorem test_decode_push_wfh : decode .wfh 0b0_0_1_10110101#11 = .pushWfh 0xB5#8 := by decide
theorem test_decode_push_wfb : decode .wfb 0b0_0_1_10110101#11 = .pushWfb 0xB5#8 := by decide
theorem test_decode_push_rsv : decode .rsv 0b0_0_1_10110101#11 = .pushRsv 0xB5#8 := by decide
theorem test_decode_idle : decode .lfs 0b0_0_0_11111111#11 = .idle 0xFF#8 := by decide
theorem test_decode_rejects_a_twelfth_bit : decodeTableWord 16 0x800 = none := by decide
theorem test_decode_table_words :
    [0x400, 0x200, 0x100, 0x000].map (decodeTableWord 16) =
      [some (.reset false false 0), some (.flush false 0), some (.pushLfs 0), some (.idle 0)] := by decide

/-! ## Meanings -/

/-- V2. -/
theorem test_reset_with_byte :
    result? (clockCycle 0x562#11 (fdetState sysA .wfb 40 48 [0x27#8, 0x26#8, 0x25#8, 0x24#8, 0x23#8])) =
      some (⟨.lfs, 0, 0, [0, 0, 0, 0, 0]⟩, none) := by decide

/-- V86. -/
theorem test_flush_clears_the_system :
    (nextState? (clockCycle 0x200#11 { State.launch sysA with bc := ⟨[], 16, 8, 0⟩, dq := [8#32] })).map
      (fun t => (t.bc.wr, t.bc.rd, t.dq, t.fdet)) = some (0, 0, [], ⟨.lfs, 0, 0, [0, 0, 0, 0, 0]⟩) := by decide

/-- V12. -/
theorem test_flush_in_reserved_phase :
    result? (clockCycle 0x200#11 (fdetState sysA .rsv 5 0 [1, 2, 3, 4, 5])) =
      some (⟨.lfs, 0, 0, [0, 0, 0, 0, 0]⟩, none) := by decide

/-- V14. -/
theorem test_idle_in_reserved_phase :
    result? (clockCycle 0x000#11 (fdetState sysA .rsv 5 7 [1, 2, 3, 4, 5])) =
      some (⟨.rsv, 5, 7, [1, 2, 3, 4, 5]⟩, none) := by decide

/-- V24. -/
theorem test_push_lfs_noise_3 :
    result? (clockCycle 0x162#11 (fdetState sysA .lfs 4 0 [0xB5#8, 0x22#8, 0x11#8, 0x00#8, 0x00#8])) =
      some (⟨.wfh, 2, 0, [0x62#8, 0xB5#8, 0x22#8, 0x11#8, 0x00#8]⟩, some 0xFFFFFFFD#32) := by decide

/-- V30, the straddle after a wrap under LITERAL. -/
theorem test_push_lfs_literal_straddle_after_wrap :
    result? (clockCycle 0x162#11 (fdetState (system .a .literal) .lfs 0xFFFFFFFF#32 0 [0xB5#8, 0, 0, 0, 0])) =
      some (⟨.wfh, 2, 0, [0x62#8, 0xB5#8, 0, 0, 0]⟩, some 2#32) := by decide

/-- V44: the newer header byte is the high one. -/
theorem test_push_wfh_high_byte :
    result? (clockCycle 0x101#11 (fdetState sysA .wfh 5 0 [0x00#8, 0x02#8, 0x01#8, 0x62#8, 0xB5#8])) =
      some (⟨.wfb, 6, 264, [0x01#8, 0x00#8, 0x02#8, 0x01#8, 0x62#8]⟩, none) := by decide

/-- V49. -/
theorem test_push_wfh_policy_b_ignores_low_bits :
    result? (clockCycle 0x110#11 (fdetState sysB .wfh 2 0 [0x03#8, 0xD3#8])) =
      some (⟨.wfb, 3, 22, [0x10#8, 0x03#8]⟩, none) := by decide

/-- V61. -/
theorem test_push_wfb_completes :
    result? (clockCycle 0x1BB#11 (fdetState sysA .wfb 7 8 [0xAA#8, 0, 0, 2, 1])) =
      some (⟨.lfs, 0, 8, [0xBB#8, 0xAA#8, 0, 0, 2]⟩, some 8#32) := by decide

/-- V60. -/
theorem test_push_wfb_counts :
    result? (clockCycle 0x1AA#11 (fdetState sysA .wfb 6 8 [0, 0, 2, 1, 0x62#8])) =
      some (⟨.wfb, 7, 8, [0xAA#8, 0, 0, 2, 1]⟩, none) := by decide

/-- V70. -/
theorem test_push_rsv_faults :
    fault? (clockCycle 0x100#11 (fdetState sysA .rsv 0 0 [0, 0, 0, 0, 0])) = some (.reservedPhase 0x100#11) := by decide

/-- V83: a full DQ drops the descriptor, FDET goes on. -/
theorem test_full_queue_drops :
    (nextState? (clockCycle 0x1BB#11
        { fdetState { sysA with queueDepth := 1 } .wfb 7 8 [0xAA#8, 0, 0, 2, 1] with dq := [8#32] })).map
      (fun t => (t.dq, t.fdet.phase, t.out)) = some ([8#32], .lfs, some 8#32) := by decide

/-- V85: C = 8, eight unread bytes, one more. -/
theorem test_append_overwrites_the_oldest :
    ((⟨[], 8, 0, 0⟩ : ByteChannel).append 8 0x5A#8).wr = 9 ∧ ((⟨[], 8, 0, 0⟩ : ByteChannel).append 8 0x5A#8).rd = 1 ∧
      ((⟨[], 8, 0, 0⟩ : ByteChannel).append 8 0x5A#8).mem = [(0, 0x5A#8)] := by decide

/-- Eight stored bytes, address order. -/
def eightBytes : Memory :=
  [(0, 0xB5#8), (1, 0x62#8), (2, 1), (3, 2), (4, 0), (5, 0), (6, 0xAA#8), (7, 0xBB#8)]

/-- V81, from the dequeued descriptor on. -/
theorem test_consumer_delivers :
    (nextState? (consumerTurn false
        { State.launch sysA with bc := ⟨eightBytes, 8, 0, 0⟩, reader := .holding 8 8#32 })).map
      (fun t => (t.ret, t.buf, t.bc.rd, t.reader)) =
      some (some 8, [0xB5#8, 0x62#8, 1, 2, 0, 0, 0xAA#8, 0xBB#8], 8, .idle) := by decide

/-- V80: an oversize message is discarded and the loop goes on. -/
theorem test_consumer_discards_oversize :
    (nextState? (consumerTurn false
        { State.launch sysA with bc := ⟨eightBytes, 8, 0, 0⟩, reader := .holding 4 8#32 })).map
      (fun t => (t.ret, t.bc.rd, t.reader)) = some (none, 8, .waiting 4) := by decide

/-- V84. -/
theorem test_consumer_underrun :
    fault? (consumerTurn false
      { State.launch sysA with bc := ⟨eightBytes.take 4, 4, 0, 0⟩, reader := .holding 64 8#32 }) =
      some (.envUnderrun 8 4) := by decide

/-- W5: nothing pushed, `next` returns 0 when its deadline passes. -/
theorem test_consumer_times_out :
    (nextState? (consumerTurn true { State.launch sysA with reader := .waiting 64 })).map (fun t => (t.ret, t.reader)) =
      some (some 0, .idle) := by decide

/-- The tables of spec/95 2.7. -/
theorem test_policy_a_sync :
    [[0x62#8, 0xB5#8], [0xB5#8, 0x62#8], [0x63#8, 0xB5#8], [0x62#8, 0xB4#8], [0x00#8, 0x00#8]].map (detectSync .a) =
      [true, false, false, false, false] := by decide
theorem test_policy_b_sync :
    [[0x00#8, 0xD3#8], [0x03#8, 0xD3#8], [0x04#8, 0xD3#8], [0xFC#8, 0xD3#8], [0xD3#8, 0xD3#8], [0x00#8, 0xD2#8]].map
      (detectSync .b) = [true, true, false, false, false, false] := by decide
theorem test_policy_a_lengths :
    [[0x00#8, 0x00#8], [0x00#8, 0x01#8], [0x01#8, 0x00#8], [0x00#8, 0x28#8], [0xFF#8, 0xFF#8]].map (decodeBodyLength .a) =
      [8#32, 9#32, 264#32, 48#32, 65543#32] := by decide
theorem test_policy_b_lengths :
    [[0x00#8], [0x02#8], [0x10#8], [0xFF#8]].map (decodeBodyLength .b) = [6#32, 8#32, 22#32, 261#32] := by decide
theorem test_policy_generic :
    detectSync (.generic generic1) [0x7E#8, 0x00#8] = true ∧ detectSync (.generic generic1) [0x00#8, 0x7E#8] = false ∧
      decodeBodyLength (.generic generic1) [0x09#8, 0x7E#8] = 9#32 ∧
      decodeBodyLength (.generic generic1) [0x0A#8, 0x7E#8] = 5#32 := by decide

/-- 30 R78: case, comment, a comma list, and the vectors of the lines. -/
theorem test_script_text :
    (readScript
        ['r', 'E', 's', 'e', 't', ' ', ';', 'x', '\n', 'P', 'U', 'S', 'H', 'S', ' ', '0', 'x', 'B', '5', ',', ' ', '0', 'x',
          '6', '2', '\n', 'F', 'I', 'L', 'L', ' ', '2', ',', '0', 'x', '0', 'a', '\n', 'f', 'l', 'u', 's', 'h', ' ', '0',
          'x', 'b', 'b']).map scriptVectors =
      some [0x400#11, 0x1B5#11, 0x162#11, 0x10A#11, 0x10A#11, 0x3BB#11] := by decide
theorem test_script_rejects_unknown_line : readScript ['s', 't', 'e', 'p'] = none := by decide

/-- The first step after reset runs what is placed. -/
theorem test_first_step_runs_the_placed_word :
    result? (step (State.reset.withFetchWord 16 0x1B5)) = some (⟨.lfs, 1, 0, [0xB5#8, 0, 0, 0, 0]⟩, none) := by decide

/-! ## Witnesses: each meets the hypotheses of the statement it is named after -/

theorem witness_PushBranchFollowsPhase :
    ivRst 0x1FF#11 = false ∧ ivFlush 0x1FF#11 = false ∧ ivValid 0x1FF#11 = true := by decide

theorem witness_DecodeOfEncodeIsIdentity :
    (Instr.reset true true 0xFF#8).wfIn .rsv = true ∧ (Instr.pushWfb 0x00#8).wfIn .wfb = true := by decide

theorem witness_DontCareBitsHaveNoEffect :
    (decode .lfs 0x400#11).operation = (decode .lfs 0x7FF#11).operation ∧ (decode .lfs 0x400#11).operation ≠ .push := by
  decide

/-- A PUSH of 0x11 scheduled. -/
def pushScheduled : State := { State.launch sysA with turns := [.clock (encode (.pushLfs 0x11#8)), .consumer false] }

theorem witness_StepRunsTheDecodedOperation :
    pushScheduled.cfg.legal = true ∧ (Instr.pushLfs 0x11#8).wfIn pushScheduled.fdet.phase = true ∧
      pushScheduled.turns = .clock (encode (.pushLfs 0x11#8)) :: [.consumer false] := by decide

/-- In a call, waiting on an empty DQ while a FLUSH and a turn of the consumer that waits on are scheduled. -/
def waitingState : State :=
  { State.launch sysA with reader := .waiting 64, turns := [.clock 0x3FF#11, .consumer false] }

/-- Each clause: nothing scheduled between calls and inside one; a call under way that returns, and one that underruns; a
wait without a push. -/
theorem witness_NoWaitLastsForEver :
    State.reset.cfg.legal = true ∧ State.reset.turns = [] ∧ State.reset.reader = .idle ∧
      waitingState.cfg.legal = true ∧ waitingState.reader = .waiting 64 ∧ waitingState.reader ≠ .idle ∧
      waitingState.dq = [] ∧ (decode .lfs 0x3FF#11).operation ≠ .push := by decide

theorem witness_NoWaitLastsForEver_unscheduled :
    ({ waitingState with turns := [] } : State).turns = [] ∧ ({ waitingState with turns := [] } : State).reader ≠ .idle :=
  ⟨rfl, by decide⟩

theorem witness_NoWaitLastsForEver_inv :
    waitingState.Inv ∧ ({ waitingState with reader := .holding 64 8#32 } : State).Inv := ⟨by decide, by decide⟩

/-- 43 R197: no enqueue comes, so the dequeue returns `timeout` after the schedule. -/
theorem test_wait_ends_after_the_schedule :
    (runSteps 3 waitingState).map (fun t => (t.ret, t.reader)) = some (some 0, .idle) := by decide

/-- A consumer turn scheduled, with a descriptor in DQ. -/
def consumerScheduled : State :=
  { State.launch sysA with turns := [.consumer true], reader := .waiting 64, dq := [8#32] }

theorem witness_ConsumerTurnLeavesFdetAlone :
    ∃ t, consumerScheduled.cfg.legal = true ∧ consumerScheduled.turns = .consumer true :: [] ∧
      step consumerScheduled = .next t := ⟨_, by decide, rfl, rfl⟩

theorem witness_IllegalConfigurationHasNoRun_policy :
    (Policy.generic { generic1 with h := 1 }).legal = false := by decide

/-- Each condition of 00 R7 at the edge of its range: S = 0, H = S, H = 65, a length H, a length 2^31. -/
theorem witness_IllegalConfigurationHasNoRun_numbers :
    (Policy.generic { generic1 with s := 0 }).S = 0 ∧
      (Policy.generic { generic1 with h := 1 }).H ≤ (Policy.generic { generic1 with h := 1 }).S ∧
      64 < (Policy.generic { generic1 with h := 65 }).H ∧
      ¬(2 + 1 ≤ (decodeBodyLength (.generic { generic1 with lengthDefault := 2#32 }) []).toNat) ∧
      ¬((decodeBodyLength (.generic { generic1 with lengthDefault := 0x80000000#32 }) []).toNat ≤ 2 ^ 31 - 1) := by decide

theorem witness_IllegalConfigurationHasNoRun_env :
    Policy.a.legal = true ∧ (({ sysA with storageBound := false } : Config).storageBound = false) ∧
      ∀ k, ({ sysA with capacity := 0 } : Config).capacity ≠ 2 ^ k :=
  ⟨by decide, rfl, fun k => (Nat.two_pow_pos k).ne⟩

theorem witness_IllegalConfigurationHasNoRun_depth :
    Policy.a.legal = true ∧ sysA.storageBound = true ∧ (∃ k, sysA.capacity = 2 ^ k) ∧
      ({ sysA with queueDepth := 0 } : Config).queueDepth = 0 := ⟨by decide, rfl, ⟨6, rfl⟩, rfl⟩

theorem witness_ParametersNeverChange : ∃ t, step pushScheduled = .next t := ⟨_, rfl⟩

theorem witness_FlushForgetsThePast : (State.launch sysA).cfg = (fdetState sysA .wfb 7 8 [0xAA#8, 0, 0, 2, 1]).cfg := rfl

/-- V28's push, at the last count before the wrap, and one that matches but does not qualify (V26). -/
theorem witness_LfsPushWithoutSyncCounts :
    sysA.legal = true ∧ (fdetState sysA .lfs 0 8 [0xB5#8, 0, 0, 0, 0]).fdet.phase = .lfs ∧
      ¬(detectSync sysA.policy (effectiveView [0xB5#8, 0, 0, 0, 0] 0x62#8) = true ∧
        (sysA.syncQual = .literal ∨ sysA.S ≤ (0#32 + 1#32).toNat)) := by decide

theorem witness_SyncDecisionIsMatchAndQualification :
    sysA.legal = true ∧ (fdetState sysA .lfs 1 0 [0xB5#8, 0, 0, 0, 0]).fdet.phase = .lfs := by decide

/-- V23: noise 1, the least. -/
theorem witness_LfsSyncAfterNoiseEmitsDiscard :
    sysA.legal = true ∧ (fdetState sysA .lfs 2 0 [0xB5#8, 0, 0, 0, 0]).fdet.phase = .lfs ∧
      detectSync sysA.policy (effectiveView [0xB5#8, 0, 0, 0, 0] 0x62#8) = true ∧
      sysA.S < (2#32 + 1#32).toNat ∧ (2#32 + 1#32).toNat - sysA.S ≤ 2 ^ 31 := by decide

/-- V22. -/
theorem witness_LfsSyncWithoutNoiseIsSilent :
    sysA.legal = true ∧ (fdetState sysA .lfs 1 0 [0xB5#8, 0, 0, 0, 0]).fdet.phase = .lfs ∧
      detectSync sysA.policy (effectiveView [0xB5#8, 0, 0, 0, 0] 0x62#8) = true ∧ (1#32 + 1#32).toNat = sysA.S := by decide

/-- V27 (n = 1) and V30 (n = 0). -/
theorem witness_LiteralStraddleEmitsPositive :
    (system .a .literal).legal = true ∧ (system .a .literal).syncQual = .literal ∧
      (fdetState (system .a .literal) .lfs 0 8 [0xB5#8, 0, 0, 0, 0]).fdet.phase = .lfs ∧
      detectSync (system .a .literal).policy (effectiveView [0xB5#8, 0, 0, 0, 0] 0x62#8) = true ∧
      (0#32 + 1#32).toNat < (system .a .literal).S ∧ (0xFFFFFFFF#32 + 1#32).toNat < (system .a .literal).S := by decide

/-- V28 and V29. -/
theorem witness_SeenWrapsSilently :
    sysA.legal = true ∧ (fdetState sysA .lfs 0xFFFFFFFF#32 0 [0xB5#8, 0, 0, 0, 0]).fdet.phase = .lfs ∧
      (fdetState sysA .lfs 0xFFFFFFFF#32 0 [0xB5#8, 0, 0, 0, 0]).fdet.seen = 0xFFFFFFFF#32 ∧
      (sysA.syncQual = .qualified ∨ detectSync sysA.policy (effectiveView [0xB5#8, 0, 0, 0, 0] 0x62#8) = false) := by decide

/-- V40. -/
theorem witness_WfhPushBeforeHeaderEndCounts :
    sysA.legal = true ∧ (fdetState sysA .wfh 2 0 [0x62#8, 0xB5#8, 0, 0, 0]).fdet.phase = .wfh ∧
      (2#32 + 1#32).toNat ≠ sysA.H := by decide

/-- V42. -/
theorem witness_WfhPushAtHeaderEndDecodesLength :
    sysA.legal = true ∧ (fdetState sysA .wfh 5 0 [0, 2, 1, 0x62#8, 0xB5#8]).fdet.phase = .wfh ∧
      (5#32 + 1#32).toNat = sysA.H := by decide

/-- V60. -/
theorem witness_WfbPushBeforeFrameEndCounts :
    (fdetState sysA .wfb 6 8 [0, 0, 2, 1, 0x62#8]).fdet.phase = .wfb ∧ 6#32 + 1#32 ≠ 8#32 := by decide

/-- V61. -/
theorem witness_WfbPushAtFrameEndEmitsMessage :
    (fdetState sysA .wfb 7 8 [0xAA#8, 0, 0, 2, 1]).fdet.phase = .wfb ∧ 7#32 + 1#32 = 8#32 := by decide

theorem witness_PushInReservedPhaseFaults : (fdetState sysA .rsv 0 0 [0, 0, 0, 0, 0]).fdet.phase = .rsv := rfl

theorem witness_OnlyTheCountMattersInsideAFrame :
    (fdetState sysA .wfh 5 0 [0, 2, 1, 0x62#8, 0xB5#8]).fdet.phase = .wfh ∧
      (fdetState sysA .wfb 7 8 [0xAA#8, 0, 0, 2, 1]).fdet.phase = .wfb := ⟨rfl, rfl⟩

theorem witness_LegalPolicyMeetsItsContract :
    Policy.a.legal = true ∧ Policy.b.legal = true ∧ (Policy.generic generic1).legal = true := by decide

/-- Two views that agree on the newest two bytes, and two that agree on the newest six. -/
theorem witness_PolicyReadsOnlyItsNewestBytes :
    (∀ i < Policy.a.S, viewAt [1, 2, 3] i = viewAt [1, 2, 4] i) ∧
      ∀ i < Policy.a.H, viewAt [1, 2, 3, 4, 5, 6, 7] i = viewAt [1, 2, 3, 4, 5, 6, 8] i := by decide

theorem witness_GenericPolicyCanBeAnyContractFunctions :
    1 ≤ 1 ∧ 1 < 64 ∧ 64 ≤ 64 ∧ ∀ k : List Byte, k.length = 64 →
      64 < ((fun _ => 65#32) k : Word).toNat ∧ ((fun _ => 65#32) k : Word).toNat ≤ 2 ^ 31 - 1 :=
  ⟨by decide, by decide, by decide, fun _ _ => by
    constructor <;> simp⟩

theorem witness_OnlyTwoBranchesEmit_discard :
    ∃ t, sysA.legal = true ∧ exec (.pushLfs 0x62#8) (fdetState sysA .lfs 2 0 [0xB5#8, 0, 0, 0, 0]) = .next t ∧
      t.out = some 0xFFFFFFFF#32 := ⟨_, by decide, rfl, by decide⟩

theorem witness_OnlyTwoBranchesEmit_message :
    ∃ t, sysA.legal = true ∧ exec (.pushWfb 0xBB#8) (fdetState sysA .wfb 7 8 [0xAA#8, 0, 0, 2, 1]) = .next t ∧
      t.out = some 8#32 := ⟨_, by decide, rfl, by decide⟩

theorem witness_ZeroIsNeverEmitted :
    ∃ t, (fdetState sysA .wfb 7 8 [0xAA#8, 0, 0, 2, 1]).Inv ∧ (Instr.pushWfb 0xBB#8).wfIn .wfb = true ∧
      exec (.pushWfb 0xBB#8) (fdetState sysA .wfb 7 8 [0xAA#8, 0, 0, 2, 1]) = .next t ∧ t.out = some 8#32 :=
  ⟨_, by decide, rfl, rfl, by decide⟩

/-- The two ends of the range. -/
theorem witness_DiscardDescriptorIsMinusTheNoise :
    1 ≤ (1#32 : Word).toNat ∧ (1#32 : Word).toNat ≤ 2 ^ 31 ∧ 1 ≤ (0x80000000#32 : Word).toNat ∧
      (0x80000000#32 : Word).toNat ≤ 2 ^ 31 := by decide

/-- The two ends of the range for S = 2. -/
theorem witness_LongNoiseReadsAsAMessage :
    2 ^ 31 + 1 ≤ (0x80000001#32 : Word).toNat ∧ (0x80000001#32 : Word).toNat ≤ 2 ^ 32 - 1 - 2 ∧
      2 ^ 31 + 1 ≤ (0xFFFFFFFD#32 : Word).toNat ∧ (0xFFFFFFFD#32 : Word).toNat ≤ 2 ^ 32 - 1 - 2 := by decide

/-- A message completing over a full queue of depth 1. -/
def fullQueue : State := { fdetState { sysA with queueDepth := 1 } .wfb 7 8 [0xAA#8, 0, 0, 2, 1] with dq := [8#32] }

theorem witness_FdetDependsOnNothingOutside :
    ∃ t, fullQueue.cfg = { fullQueue with dq := [] }.cfg ∧ fullQueue.fdet = { fullQueue with dq := [] }.fdet ∧
      clockCycle 0x1BB#11 fullQueue = .next t ∧ t.out ≠ none ∧ fullQueue.cfg.queueDepth ≤ fullQueue.dq.length :=
  ⟨_, rfl, rfl, rfl, by decide, by decide⟩

theorem witness_DescriptorsQueueInCycleOrder :
    ∃ t, (∀ iv ∈ [0x1BB#11], ivRst iv = false ∧ ivFlush iv = false) ∧
      runCycles [0x1BB#11] (fdetState sysA .wfb 7 8 [0xAA#8, 0, 0, 2, 1]) = some (t, [8#32]) ∧
      (fdetState sysA .wfb 7 8 [0xAA#8, 0, 0, 2, 1]).dq.length + 1 ≤ sysA.queueDepth :=
  ⟨_, by decide, rfl, by decide⟩

/-- With room, and full. -/
theorem witness_AppendOverwritesTheOldestWhenFull :
    (∃ k, 8 = 2 ^ k) ∧ (⟨eightBytes, 8, 0, 0⟩ : ByteChannel).Inv 8 ∧ ¬(⟨eightBytes, 8, 0, 0⟩ : ByteChannel).unread < 8 ∧
      (⟨eightBytes, 8, 1, 0⟩ : ByteChannel).Inv 8 ∧ (⟨eightBytes, 8, 1, 0⟩ : ByteChannel).unread < 8 :=
  ⟨⟨3, rfl⟩, by decide, by decide, by decide, by decide⟩

/-- One state for each clause: a call to enter, no call, a descriptor to take, an empty queue. -/
theorem witness_DequeueTakesTheHeadOrTimesOut :
    ({ State.launch sysA with calls := [64] } : State).reader = .idle ∧ (State.launch sysA).calls = [] ∧
      consumerScheduled.reader = .waiting 64 ∧ consumerScheduled.dq = 8#32 :: [] ∧
      ({ consumerScheduled with dq := [] } : State).dq = [] := by decide

/-- A noise descriptor, and an oversize message one above `cap`. -/
theorem witness_ConsumerDiscardsNoiseAndOversize :
    asI32 0xFFFFFFFD#32 < 0 ∧ (asI32 0xFFFFFFFD#32).natAbs ≤ (⟨eightBytes, 8, 0, 0⟩ : ByteChannel).unread ∧
      ((7 : Nat) : Int) < asI32 8#32 ∧ (asI32 8#32).natAbs ≤ (⟨eightBytes, 8, 0, 0⟩ : ByteChannel).unread := by decide

/-- `cap` equal to the length. -/
theorem witness_ConsumerDeliversTheOldestBytes :
    0 < asI32 8#32 ∧ asI32 8#32 ≤ ((8 : Nat) : Int) ∧ (asI32 8#32).toNat ≤ (⟨eightBytes, 8, 0, 0⟩ : ByteChannel).unread := by
  decide

/-- One byte too few. -/
theorem witness_UnderrunIsAnEnvironmentFault :
    (⟨eightBytes, 8, 1, 0⟩ : ByteChannel).unread < (asI32 8#32).natAbs := by decide

/-- The consumer holding a message of 8 bytes. -/
def holding (cap : Nat) : State := { State.launch sysA with bc := ⟨eightBytes, 8, 0, 0⟩, reader := .holding cap 8#32 }

theorem witness_NextNeverReturnsMoreThanCap :
    ∃ t u, (holding 8).reader = .holding 8 8#32 ∧ consumerTurn false (holding 8) = .next t ∧
      (holding 7).reader = .holding 7 8#32 ∧ consumerTurn false (holding 7) = .next u := ⟨_, _, rfl, rfl, rfl, rfl⟩

theorem witness_LaunchMeetsTheInvariant : sysA.legal = true ∧ sysB.legal = true := by decide

/-- In the body of a frame, the last six bytes stored and in the window, the last byte scheduled. -/
def inBody : State :=
  { fdetState sysA .wfb 7 8 [0xAA#8, 0x00#8, 0x00#8, 0x02#8, 0x01#8] with
    bc    := ⟨eightBytes.take 7, 7, 0, 0⟩
    turns := [.clock 0x1BB#11] }

theorem inBody_inv : inBody.Inv := by decide

theorem witness_StepKeepsTheInvariant : ∃ t, inBody.Inv ∧ step inBody = .next t := ⟨_, inBody_inv, rfl⟩

theorem witness_StepKeepsWindowEqualToChannel : ∃ t, inBody.Inv ∧ inBody.LookBack ∧ step inBody = .next t :=
  ⟨_, inBody_inv, by decide, rfl⟩

/-- A state of the invariant that goes on, and two whose consumer underruns, by a turn and for want of one. -/
theorem witness_OnlyTheConsumerCanStopTheMachine :
    inBody.Inv ∧ ({ inBody with reader := .holding 64 8#32, turns := [.consumer false] } : State).Inv ∧
      ({ inBody with reader := .holding 64 8#32, turns := [] } : State).Inv :=
  ⟨inBody_inv, by decide, by decide⟩

theorem witness_DeclaredIsWrittenOnlyAtHeaderEnd :
    ∃ t, step { fdetState sysA .wfh 5 0 [0, 2, 1, 0x62#8, 0xB5#8] with turns := [.clock 0x100#11] } = .next t ∧
      t.fdet.declared ≠ 0#32 := ⟨_, rfl, by decide⟩

theorem witness_EveryPushedByteIsCountedOnce :
    sysA.legal = true ∧ sysA.syncQual = .qualified ∧ [0x11#8, 0xB5#8, 0x62#8].length < 2 ^ 31 := by decide

/-- Two windows that differ where nothing has been pushed. -/
theorem witness_QualifiedNeverReadsUnfilledWindow :
    sysA.legal = true ∧ sysA.syncQual = .qualified ∧
      (fdetState sysA .lfs 1 0 [0x62#8, 0xB5#8, 1, 2, 3]).fdet.Inv sysA ∧
      (fdetState sysA .lfs 1 0 [0x62#8, 0, 0, 0, 0]).fdet.Inv sysA ∧
      SameButUnfilled (fdetState sysA .lfs 1 0 [0x62#8, 0xB5#8, 1, 2, 3]).fdet
        (fdetState sysA .lfs 1 0 [0x62#8, 0, 0, 0, 0]).fdet := by decide

/-- Frame 2 of spec/95 P4. -/
theorem witness_FrameEmitsExactlyItsLength :
    sysA.legal = true ∧ sysA.syncQual = .qualified ∧ (fdetState sysA .lfs 0 8 [0xB5#8, 0xAA#8, 0, 0, 2]).fdet.Inv sysA ∧
      IsFrame sysA [0xB5#8, 0x62#8, 0x01#8, 0x02#8, 0x00#8, 0x00#8, 0xCC#8, 0xDD#8] := by
  unfold IsFrame
  decide

theorem witness_PushedBytesAreStoredInOrder :
    ∃ t, sysA.legal = true ∧ (State.launch sysA).bc.Inv sysA.capacity ∧
      runCycles ([0x11#8].map pushVector) (State.launch sysA) = some (t, []) ∧
      (State.launch sysA).bc.unread + 1 ≤ sysA.capacity := ⟨_, by decide, by decide, rfl, by decide⟩

theorem witness_AlignedStepStaysAlignedAndGoesOn : inBody.Inv ∧ inBody.Aligned ∧ inBody.Roomy :=
  ⟨inBody_inv, by decide, rfl, by decide, by decide, by decide, fun iv h h' => by
    cases h
    revert h'
    decide⟩

/-- A cycle that shows a message descriptor, and one that shows none. -/
theorem witness_PortsShowRegistersAndDescriptor :
    ∃ t u, inBody.Inv ∧ (Instr.pushWfb 0xBB#8).wfIn inBody.fdet.phase = true ∧ (Instr.idle 0xFF#8).wfIn inBody.fdet.phase = true ∧
      exec (.pushWfb 0xBB#8) inBody = .next t ∧ inBody.fdet.seen + 1#32 = inBody.fdet.declared ∧
      exec (.idle 0xFF#8) inBody = .next u :=
  ⟨_, _, inBody_inv, rfl, rfl, rfl, by decide, rfl⟩

/-- V61 at the ports: R72's code of LFS, the registers, the descriptor 8. -/
theorem test_ports_after_a_message :
    (nextState? (exec (.pushWfb 0xBB#8) inBody)).map
      (fun t => (t.phaseO, t.seenO, t.declaredO, t.descValidPort, t.descPort)) =
      some (0b00#2, 0#32, 8#32, true, 8#32) := by decide

end Sys2Proof.Tests
end

section
/-! SUPPORT. The lengths a legal policy decodes (spec/41_policy.md R142), an illegal configuration's step (00_scope.md R7,
43_environment.md R207), and the parameters over a step (00_scope.md R6); they settle O11 and O12. -/

namespace Sys2Proof.Machine

/-! ## The lengths of a legal policy -/

theorem decodeBodyLengthGeneric_mem (g : GenericPolicy) (view : List Byte) :
    decodeBodyLengthGeneric g view = g.lengthDefault ∨ ∃ r ∈ g.lengths, r.2 = decodeBodyLengthGeneric g view := by
  unfold decodeBodyLengthGeneric
  cases h : g.lengths.lookup (newestBytes view g.h) with
  | none => exact .inl rfl
  | some w => exact .inr (mem_of_lookup h)

theorem meets_genericLengthsInRange_iff (g : GenericPolicy) :
    (Policy.generic g).meets .genericLengthsInRange = true ↔
      lengthInContract g.h g.lengthDefault = true ∧ ∀ r ∈ g.lengths, lengthInContract g.h r.2 = true := by
  simp [Policy.meets]

/-- The reference policies keep the contract by their formulas (41 R145, R150), GENERIC by the check of its table. -/
theorem legal_decodeBodyLength_inContract {p : Policy} (hp : p.legal = true) (view : List Byte) :
    lengthInContract p.H (decodeBodyLength p view) = true := by
  cases p with
  | a =>
    have h0 := (viewAt view 0).isLt
    have h1 := (viewAt view 1).isLt
    rw [lengthInContract_iff, decodeBodyLength, toNat_decodeA, Policy.H]
    omega
  | b =>
    have h0 := (viewAt view 0).isLt
    rw [lengthInContract_iff, decodeBodyLength, toNat_decodeB, Policy.H]
    omega
  | generic g =>
    obtain ⟨-, -, -, -, -, hlengths⟩ := (policy_legal_iff _).1 hp
    obtain ⟨hdefault, hrows⟩ := (meets_genericLengthsInRange_iff g).1 hlengths
    change lengthInContract g.h (decodeBodyLengthGeneric g view) = true
    rcases decodeBodyLengthGeneric_mem g view with he | ⟨r, hr, he⟩
    · rw [he]
      exact hdefault
    · rw [← he]
      exact hrows r hr

/-- Any of 00 R7's conditions, in numbers, makes a policy illegal when it is broken. -/
theorem policy_illegal_of_numbers {p : Policy}
    (h : p.S = 0 ∨ p.H ≤ p.S ∨ 64 < p.H ∨
      ∃ view, ¬(p.H + 1 ≤ (decodeBodyLength p view).toNat ∧ (decodeBodyLength p view).toNat ≤ 2 ^ 31 - 1)) :
    p.legal = false := by
  refine Bool.eq_false_iff.2 fun hp => ?_
  obtain ⟨hS, hSH, hH, -⟩ := (policy_legal_iff p).1 hp
  rcases h with h | h | h | ⟨view, hview⟩
  · omega
  · omega
  · omega
  · exact hview ((lengthInContract_iff _ _).1 (legal_decodeBodyLength_inContract hp view))

/-! ## The step of an illegal configuration -/

theorem meets_of_firstFailure {p : Policy} {c : ConfigCondition} (h : p.firstFailure = some c) : p.meets c = false := by
  simpa using List.find?_some h

theorem envLegal_iff (cfg : Config) : cfg.envLegal = true ↔ cfg.storageBound = true ∧ ∃ k, cfg.capacity = 2 ^ k := by
  rw [Config.envLegal, Bool.and_eq_true, isPowerOfTwo_iff]

section Elaborated
variable {cfg : Config} (k : Host.Outcome State Fault Refusal)

theorem elaborated_policy_illegal (hp : cfg.policy.legal = false) :
    ∃ c, cfg.policy.meets c = false ∧ elaborated cfg k = .fault (.configRefused c) := by
  cases hf : cfg.policy.firstFailure with
  | none => simp [(firstFailure_eq_none_iff _).1 hf] at hp
  | some c => exact ⟨c, meets_of_firstFailure hf, by simp [elaborated, hf]⟩

theorem elaborated_env_illegal (hp : cfg.policy.legal = true) (he : cfg.envLegal = false) :
    elaborated cfg k = .fault (.envConfig cfg.capacity) := by
  simp [elaborated, (firstFailure_eq_none_iff _).2 hp, he]

theorem elaborated_depth_zero (hp : cfg.policy.legal = true) (he : cfg.envLegal = true) (hq : cfg.queueDepth = 0) :
    elaborated cfg k = .refused .queueDepthZero := by
  simp [elaborated, (firstFailure_eq_none_iff _).2 hp, he, hq]

end Elaborated

/-- Settles O11: each illegal configuration meets one stop of `elaborated`, whatever the turn. -/
theorem illegalConfigurationHasNoRun : Obligations.IllegalConfigurationHasNoRun := by
  intro s
  refine ⟨fun h => elaborated_policy_illegal _ (policy_illegal_of_numbers h), elaborated_policy_illegal _,
    fun hp h => elaborated_env_illegal _ hp ?_, fun hp hb hc => elaborated_depth_zero _ hp ((envLegal_iff _).2 ⟨hb, hc⟩)⟩
  refine Bool.eq_false_iff.2 fun he => ?_
  obtain ⟨hb, k, hk⟩ := (envLegal_iff _).1 he
  rcases h with h | h
  · simp [hb] at h
  · exact h k hk

/-! ## The parameters -/

theorem consumerTurn_keeps_cfg {late : Bool} {s t : State} (h : consumerTurn late s = .next t) : t.cfg = s.cfg := by
  rcases consumerTurn_next_cases h with rfl | ⟨_, _, _, _, rfl⟩ | ⟨_, _, _, _, _, rfl⟩ | ⟨_, _, _, _, rfl⟩ |
    ⟨_, _, _, _, _, rfl⟩ | ⟨_, _, _, _, _, rfl⟩ <;> rfl

/-- Settles O12: a clock cycle keeps its environment, and neither an IDLE cycle nor a consumer turn writes a parameter. -/
theorem parametersNeverChange : Obligations.ParametersNeverChange := by
  intro s t h
  obtain ⟨-, ⟨iv, rest, -, hexec⟩ | ⟨-, -, rfl⟩ | ⟨late, rest, -, hturn⟩⟩ := step_next_cases h
  · obtain ⟨hcfg, -⟩ := exec_keeps_environment hexec
    exact hcfg
  · exact systemIdle_cfg s
  · have hcfg := consumerTurn_keeps_cfg hturn
    exact hcfg

end Sys2Proof.Machine
end

section
/-! SUPPORT. The invariant over each of the system's cycle actions, over a turn of the consumer and over a step
(spec/10_state.md R30, 43_environment.md R191, R196, 42_descriptor.md R174), who writes `declared` (10 R23), and the output
ports (10 R27, R28); they settle O51, O54 and O60. -/

namespace Sys2Proof.Machine

/-! ## What the PUSH branches keep -/

section Branches
variable {cfg : Config} {f : Fdet} (b : Byte)

/-- A PUSH inside a phase counts one byte more; what the phase says of the count is all there is to show. -/
theorem fdetInv_counted {n : Word} (hi : f.Inv cfg)
    (hwfh : f.phase = .wfh → cfg.S ≤ n.toNat ∧ n.toNat < cfg.H)
    (hwfb : f.phase = .wfb → cfg.H ≤ n.toNat ∧ n.toNat < f.declared.toNat) :
    Fdet.Inv cfg { f with seen := n, win := shiftWindow cfg.winDepth f.win b } := by
  obtain ⟨hwin, hrsv, -, hbody⟩ := hi
  refine ⟨by simp [hwin], hrsv, hwfh, fun hp => ?_⟩
  obtain ⟨-, -, hdeclared⟩ := hbody hp
  exact ⟨(hwfb hp).1, (hwfb hp).2, hdeclared⟩

/-- A sync opens a header with S bytes credited, and S < H (00 R7). -/
theorem lfsBranch_inv (hl : cfg.legal = true) (hp : f.phase = .lfs) (hi : f.Inv cfg) :
    (lfsBranch cfg f b).1.Inv cfg := by
  cases hhit : syncHit cfg f b with
  | true =>
    obtain ⟨hwin, -⟩ := hi
    obtain ⟨-, hSH, -⟩ := legal_bounds hl
    rw [lfsBranch_hit hhit]
    exact ⟨by simp [hwin], by simp, fun _ => by simpa [toNat_syncLengthWord hl] using hSH, by simp⟩
  | false =>
    rw [lfsBranch_miss hhit]
    exact fdetInv_counted b hi (by simp [hp]) (by simp [hp])

/-- A header that completes opens a body of H bytes seen, and the policy's length is above H (41 R142). -/
theorem wfhBranch_inv (hl : cfg.legal = true) (hp : f.phase = .wfh) (hi : f.Inv cfg) :
    (wfhBranch cfg f b).1.Inv cfg := by
  have ⟨hwin, _, hheader, _⟩ := hi
  obtain ⟨hS, hH⟩ := hheader hp
  obtain ⟨-, -, hH64⟩ := legal_bounds hl
  have hn : (nextCount f).toNat = f.seen.toNat + 1 := toNat_nextCount_of_lt (by omega)
  cases hc : headerComplete cfg f with
  | true =>
    have hnH := (headerComplete_iff hl f).1 hc
    have hlen := (lengthInContract_iff _ _).1 (legal_decodeBodyLength_inContract (legal_policy hl) (effectiveView f.win b))
    rw [wfhBranch_complete hc]
    exact ⟨by simp [hwin], by simp, by simp, fun _ => ⟨hnH.ge, hnH.trans_lt hlen.1, hlen⟩⟩
  | false =>
    have hnH : (nextCount f).toNat ≠ cfg.H := fun he => by simp [(headerComplete_iff hl f).2 he] at hc
    rw [wfhBranch_open hc]
    exact fdetInv_counted b hi (fun _ => by omega) (by simp [hp])

/-- Inside a body the count stays below `declared`: the byte that reaches it ends the frame. -/
theorem wfbBranch_inv (hp : f.phase = .wfb) (hi : f.Inv cfg) : (wfbBranch cfg f b).1.Inv cfg := by
  have ⟨hwin, _, _, hbody⟩ := hi
  obtain ⟨hH, hseen, -, hmax⟩ := hbody hp
  have hn : (nextCount f).toNat = f.seen.toNat + 1 := toNat_nextCount_of_lt (by omega)
  cases hc : frameComplete f with
  | true =>
    rw [wfbBranch_complete hc]
    exact ⟨by simp [hwin], by simp, by simp, by simp⟩
  | false =>
    have hnd : (nextCount f).toNat ≠ f.declared.toNat := fun he => by simp [(frameComplete_iff f).2 he] at hc
    rw [wfbBranch_open hc]
    exact fdetInv_counted b hi (by simp [hp]) (fun _ => by omega)

/-- A sync emits nothing at noise 0, and minus the noise is 0 for no other noise (42 R174). -/
theorem lfsBranch_emits_no_zero : (lfsBranch cfg f b).2 ≠ some 0#32 := by
  cases hhit : syncHit cfg f b with
  | true =>
    rw [lfsBranch_hit hhit]
    by_cases hz : noiseCount cfg f = 0#32
    · simp [hz]
    · simpa [hz, discardDescriptor] using neg32_ne_zero hz
  | false => simp [lfsBranch_miss hhit]

theorem wfhBranch_emits_nothing : (wfhBranch cfg f b).2 = none := by
  cases hc : headerComplete cfg f with
  | true => rw [wfhBranch_complete hc]
  | false => rw [wfhBranch_open hc]

/-- A message is `declared`, which is above H in a body (10 R30). -/
theorem wfbBranch_emits_no_zero (hp : f.phase = .wfb) (hi : f.Inv cfg) : (wfbBranch cfg f b).2 ≠ some 0#32 := by
  obtain ⟨-, -, -, hbody⟩ := hi
  obtain ⟨-, -, hdeclared, -⟩ := hbody hp
  cases hc : frameComplete f with
  | true =>
    rw [wfbBranch_complete hc]
    intro he
    have hz : f.declared = 0#32 := Option.some.inj he
    simp [hz] at hdeclared
  | false => simp [wfbBranch_open hc]

end Branches

/-! ## The DescriptorChannel -/

theorem offer_length_le_depth {depth : Nat} {dq : List Word} (out : Option Word) (h : dq.length ≤ depth) :
    (offer depth dq out).length ≤ depth := by
  cases out with
  | none => exact h
  | some d =>
    simp only [offer, enqueue]
    split
    · rw [List.length_append, List.length_singleton]
      omega
    · exact h

/-- A cycle queues nothing but what it emits. -/
theorem mem_offer {depth : Nat} {dq : List Word} {out : Option Word} {x : Word} (h : x ∈ offer depth dq out) :
    x ∈ dq ∨ out = some x := by
  cases out with
  | none => exact .inl h
  | some d =>
    simp only [offer, enqueue] at h
    split at h
    · simpa [eq_comm] using h
    · exact .inl h

/-! ## The invariant over a clock cycle -/

section CycleActions
variable {s : State}

theorem systemPush_inv {u : Fdet × Option Word} (b : Byte) (hs : s.Inv) (hf : u.1.Inv s.cfg) (hz : u.2 ≠ some 0#32) :
    (systemPush b u s).Inv := by
  obtain ⟨hl, -, hbc, hlen, hdq, -, hreader⟩ := hs
  exact ⟨hl, hf, append_inv b (legal_capacity hl) hbc, offer_length_le_depth _ hlen,
    fun hmem => (mem_offer hmem).elim hdq hz, hz, hreader⟩

theorem atReset_inv (cfg : Config) : (Fdet.atReset cfg.winDepth).Inv cfg := by
  simp [Fdet.Inv]

theorem systemClear_inv (hs : s.Inv) : (systemClear s).Inv := by
  obtain ⟨hl, -, -, -, -, -, hreader⟩ := hs
  exact ⟨hl, atReset_inv s.cfg, reset_inv _ _, Nat.zero_le _, by simp, by simp, hreader⟩

theorem systemIdle_inv (hs : s.Inv) : (systemIdle s).Inv := by
  obtain ⟨hl, hf, hbc, hlen, hdq, -, hreader⟩ := hs
  exact ⟨hl, hf, hbc, hlen, hdq, by simp, hreader⟩

/-- Every operation that belongs to the phase keeps the invariant. -/
theorem exec_keeps_inv {i : Instr} {t : State} (hs : s.Inv) (hw : i.wfIn s.fdet.phase = true) (h : exec i s = .next t) :
    t.Inv := by
  have ⟨hl, hf, _⟩ := hs
  rcases exec_next_cases h with ⟨rfl, -⟩ | ⟨rfl, -⟩ | ⟨b, ⟨rfl, rfl⟩ | ⟨rfl, rfl⟩ | ⟨rfl, rfl⟩⟩
  · exact systemClear_inv hs
  · exact systemIdle_inv hs
  · have hp : s.fdet.phase = .lfs := by simpa [Instr.wfIn] using hw
    exact systemPush_inv b hs (lfsBranch_inv b hl hp hf) (lfsBranch_emits_no_zero b)
  · have hp : s.fdet.phase = .wfh := by simpa [Instr.wfIn] using hw
    exact systemPush_inv b hs (wfhBranch_inv b hl hp hf) (by simp [wfhBranch_emits_nothing])
  · have hp : s.fdet.phase = .wfb := by simpa [Instr.wfIn] using hw
    exact systemPush_inv b hs (wfbBranch_inv b hp hf) (wfbBranch_emits_no_zero b hp hf)

end CycleActions

/-- The branch of a PUSH is that of its phase (30 R75). -/
theorem pushBranch_wfIn (p : Phase) (b : Byte) : (pushBranch p b).wfIn p = true := by
  cases p <;> rfl

/-- A vector decodes to an operation that belongs to the phase (30 R74, R75). -/
theorem decode_wfIn (p : Phase) (iv : InputVec) : (decode p iv).wfIn p = true := by
  unfold decode
  split
  · rfl
  · split
    · rfl
    · split
      · exact pushBranch_wfIn p _
      · rfl

/-! ## The invariant over a turn of the consumer and over a step -/

/-- The consumer takes a descriptor from DQ, where none is 0, and moves the read cursor by unread bytes alone. -/
theorem consumerTurn_keeps_inv {late : Bool} {s t : State} (hs : s.Inv) (h : consumerTurn late s = .next t) : t.Inv := by
  have ⟨hl, hf, hbc, hlen, hdq, hout, _⟩ := hs
  rcases consumerTurn_next_cases h with rfl | ⟨_, _, _, _, rfl⟩ | ⟨_, d, rest, _, hd, rfl⟩ | ⟨_, _, _, _, rfl⟩ |
    ⟨_, _, _, hu, _, rfl⟩ | ⟨_, _, _, hu, _, rfl⟩
  · exact hs
  · exact ⟨hl, hf, hbc, hlen, hdq, hout, rfl⟩
  · rw [hd, List.length_cons] at hlen
    rw [hd, List.mem_cons, not_or] at hdq
    exact ⟨hl, hf, hbc, Nat.le_of_succ_le hlen, hdq.2, hout, by simpa [Reader.holdsNoZero] using Ne.symm hdq.1⟩
  · exact ⟨hl, hf, hbc, hlen, hdq, hout, rfl⟩
  · exact ⟨hl, hf, advance_inv hbc hu, hlen, hdq, hout, rfl⟩
  · exact ⟨hl, hf, advance_inv hbc hu, hlen, hdq, hout, rfl⟩

/-- Settles O51: a clock cycle decodes to an operation of its phase, and no clause of the invariant reads the schedule. -/
theorem stepKeepsTheInvariant : Obligations.StepKeepsTheInvariant := by
  intro s t hs h
  obtain ⟨-, ⟨iv, rest, -, hexec⟩ | ⟨-, -, rfl⟩ | ⟨late, rest, -, hturn⟩⟩ := step_next_cases h
  · have hrest : State.Inv { s with turns := rest } := hs
    exact exec_keeps_inv hrest (decode_wfIn _ iv) hexec
  · exact systemIdle_inv hs
  · have hrest : State.Inv { s with turns := rest } := hs
    exact consumerTurn_keeps_inv hrest hturn

/-! ## Who writes `declared` -/

theorem lfsBranch_declared (cfg : Config) (f : Fdet) (b : Byte) : (lfsBranch cfg f b).1.declared = f.declared := by
  cases hhit : syncHit cfg f b with
  | true => rw [lfsBranch_hit hhit]
  | false => rw [lfsBranch_miss hhit]

theorem wfbBranch_declared (cfg : Config) (f : Fdet) (b : Byte) : (wfbBranch cfg f b).1.declared = f.declared := by
  cases hc : frameComplete f with
  | true => rw [wfbBranch_complete hc]
  | false => rw [wfbBranch_open hc]

/-- A PUSH in WFH writes `declared` at the header's last byte only. -/
theorem headerComplete_of_declared_ne {cfg : Config} {f : Fdet} {b : Byte}
    (h : (wfhBranch cfg f b).1.declared ≠ f.declared) : headerComplete cfg f = true := by
  by_contra hc
  rw [wfhBranch_open (Bool.eq_false_iff.2 hc)] at h
  exact h rfl

/-- The operations that write `declared` (10 R23). -/
theorem exec_declared_ne_cases {i : Instr} {s t : State} (h : exec i s = .next t)
    (hne : t.fdet.declared ≠ s.fdet.declared) :
    i.operation = .reset ∨ i.operation = .flush ∨ ∃ b, i = .pushWfh b ∧ headerComplete s.cfg s.fdet = true := by
  rcases exec_next_cases h with ⟨-, hop | hop⟩ | ⟨rfl, -⟩ | ⟨b, ⟨-, rfl⟩ | ⟨hi, rfl⟩ | ⟨-, rfl⟩⟩
  · exact .inl hop
  · exact .inr (.inl hop)
  · exact absurd rfl hne
  · exact absurd (lfsBranch_declared _ _ _) hne
  · exact .inr (.inr ⟨b, hi, headerComplete_of_declared_ne hne⟩)
  · exact absurd (wfbBranch_declared _ _ _) hne

theorem consumerTurn_keeps_fdet {late : Bool} {s t : State} (h : consumerTurn late s = .next t) : t.fdet = s.fdet := by
  rcases consumerTurn_next_cases h with rfl | ⟨_, _, _, _, rfl⟩ | ⟨_, _, _, _, _, rfl⟩ | ⟨_, _, _, _, rfl⟩ |
    ⟨_, _, _, _, _, rfl⟩ | ⟨_, _, _, _, _, rfl⟩ <;> rfl

/-- PUSH.WFH takes `iv[7:0]` (30 R71). -/
theorem decode_eq_pushWfh {p : Phase} {iv : InputVec} {b : Byte} (h : decode p iv = .pushWfh b) :
    decode p iv = .pushWfh (ivByte iv) := by
  unfold decode at h ⊢
  split at h
  · cases h
  · split at h
    · cases h
    · split at h
      · cases p <;> simp_all [pushBranch]
      · cases h

/-- Settles O54: only a scheduled clock cycle runs an operation that writes the register. -/
theorem declaredIsWrittenOnlyAtHeaderEnd : Obligations.DeclaredIsWrittenOnlyAtHeaderEnd := by
  intro s t h hne
  obtain ⟨hl, ⟨iv, rest, hturns, hexec⟩ | ⟨-, -, rfl⟩ | ⟨late, rest, -, hturn⟩⟩ := step_next_cases h
  · refine ⟨iv, rest, hturns, ?_⟩
    rcases exec_declared_ne_cases hexec hne with hop | hop | ⟨b, hi, hc⟩
    · exact .inl hop
    · exact .inr (.inl hop)
    · exact .inr (.inr ⟨decode_eq_pushWfh hi, (headerComplete_iff hl s.fdet).1 hc⟩)
  · exact absurd rfl hne
  · have hfdet := consumerTurn_keeps_fdet hturn
    exact absurd (congrArg Fdet.declared hfdet) hne

/-! ## The ports -/

/-- The phase encoding tells the phases apart (30 R72). -/
theorem toBits_injective : Function.Injective Phase.toBits := Function.LeftInverse.injective ofBits_toBits

theorem phase_eq_iff_phaseO (s : State) (p : Phase) : s.fdet.phase = p ↔ s.phaseO = p.toBits :=
  toBits_injective.eq_iff.symm

theorem descValidPort_eq_false_iff (s : State) : s.descValidPort = false ↔ s.out = none := by
  simp [State.descValidPort, descValid]

/-- The two ports together are the cycle's descriptor (42 R170). -/
theorem out_eq_some_iff_ports (s : State) (d : Word) : s.out = some d ↔ s.descValidPort = true ∧ s.descPort = d := by
  unfold State.descValidPort State.descPort
  cases s.out with
  | none => simp [descValid]
  | some e => simp [descValid, descWord]

/-- Without a zero descriptor, `desc` is 0 in the silent cycles alone (30 R77). -/
theorem descPort_eq_zero_iff {s : State} (hz : s.out ≠ some 0#32) :
    s.descPort = 0x00000000#32 ↔ s.descValidPort = false := by
  rw [descValidPort_eq_false_iff]
  unfold State.descPort
  cases ho : s.out with
  | none => simp [descWord]
  | some d => simpa [descWord, ho] using hz

/-- An operation other than PUSH emits nothing. -/
theorem exec_out_of_not_push {i : Instr} {s t : State} (h : exec i s = .next t) (hi : i.operation ≠ .push) :
    t.out = none := by
  rcases exec_next_cases h with ⟨rfl, -⟩ | ⟨rfl, -⟩ | ⟨b, ⟨rfl, -⟩ | ⟨rfl, -⟩ | ⟨rfl, -⟩⟩
  · exact systemClear_out s
  · exact systemIdle_out s
  all_goals exact absurd rfl hi

/-- The byte that completes a frame emits `declared` (40 R114). -/
theorem exec_pushWfb_out {b : Byte} {s t : State} (h : exec (.pushWfb b) s = .next t)
    (hn : s.fdet.seen + 1#32 = s.fdet.declared) : t.out = some s.fdet.declared := by
  have hc : frameComplete s.fdet = true := beq_iff_eq.2 hn
  rw [exec_pushWfb] at h
  cases h
  rw [systemPush_out, wfbBranch_complete hc, messageDescriptor]

/-- Settles O60: R72's code is injective, and a cycle from the invariant emits no zero descriptor. -/
theorem portsShowRegistersAndDescriptor : Obligations.PortsShowRegistersAndDescriptor := by
  refine ⟨fun s => ⟨rfl, rfl, ofBits_toBits _, phase_eq_iff_phaseO s .lfs, phase_eq_iff_phaseO s .wfh,
    phase_eq_iff_phaseO s .wfb, phase_eq_iff_phaseO s .rsv⟩, fun s t i hs hw h => ?_⟩
  obtain ⟨-, -, -, -, -, hz, -⟩ := exec_keeps_inv hs hw h
  refine ⟨descPort_eq_zero_iff hz, out_eq_some_iff_ports t,
    fun hi => (descValidPort_eq_false_iff t).2 (exec_out_of_not_push h hi), ?_⟩
  rintro ⟨b, rfl⟩ hn
  exact (out_eq_some_iff_ports t _).1 (exec_pushWfb_out h hn)

end Sys2Proof.Machine
end

section
/-! SUPPORT. What a decision reads: the policy its newest bytes (spec/20_memory.md R54, 41_policy.md R141, R142), a PUSH
under QUALIFIED the bytes of its phase (20 R54). What a cycle leaves behind: the window beside the ByteChannel
(20 R63) and the DescriptorChannel (43_environment.md R199). They settle O36, O56, O52 and O43. -/

namespace Sys2Proof.Machine

/-! ## The policy reads its newest bytes -/

/-- Both reference policies decide the sync on the newest two bytes (41 R144, R148), GENERIC on its S (41 R141). -/
theorem detectSync_congr {p : Policy} {v w : List Byte} (h : ∀ i < p.S, viewAt v i = viewAt w i) :
    detectSync p v = detectSync p w := by
  cases p with
  | a => simp only [detectSync, detectSyncA, h 0 Nat.zero_lt_two, h 1 Nat.one_lt_two]
  | b => simp only [detectSync, detectSyncB, h 0 Nat.zero_lt_two, h 1 Nat.one_lt_two]
  | generic g => exact congrArg g.syncs.contains (newestBytes_congr h)

/-- Policy A decodes the newest two header bytes (41 R145), Policy B the newest one (41 R150), GENERIC all H (41 R142). -/
theorem decodeBodyLength_congr {p : Policy} {v w : List Byte} (h : ∀ i < p.H, viewAt v i = viewAt w i) :
    decodeBodyLength p v = decodeBodyLength p w := by
  cases p with
  | a =>
    have h0 : viewAt v 0 = viewAt w 0 := h 0 (by decide)
    have h1 : viewAt v 1 = viewAt w 1 := h 1 (by decide)
    simp only [decodeBodyLength, decodeBodyLengthA, h0, h1]
  | b =>
    have h0 : viewAt v 0 = viewAt w 0 := h 0 (by decide)
    simp only [decodeBodyLength, decodeBodyLengthB, h0]
  | generic g =>
    have hk : newestBytes v g.h = newestBytes w g.h := newestBytes_congr h
    simp only [decodeBodyLength, decodeBodyLengthGeneric, hk]

/-- Settles O36, policy by policy. -/
theorem policyReadsOnlyItsNewestBytes : Obligations.PolicyReadsOnlyItsNewestBytes :=
  fun _ _ _ => ⟨detectSync_congr, decodeBodyLength_congr⟩

/-! ## Two windows that agree on the newest bytes -/

section Agreement
variable {v w : List Byte} {k n : Nat} (b : Byte) (h : ∀ i < k, viewAt v i = viewAt w i) (hn : n ≤ k + 1)
include h hn

/-- The byte just pushed is one more position of agreement. -/
theorem viewAt_effectiveView_congr : ∀ i < n, viewAt (effectiveView v b) i = viewAt (effectiveView w b) i
  | 0, _ => rfl
  | i + 1, hi => h i (by omega)

/-- So it is after the shift; beyond the window both read the fill (log 15). -/
theorem viewAt_shiftWindow_congr (depth : Nat) :
    ∀ i < n, viewAt (shiftWindow depth v b) i = viewAt (shiftWindow depth w b) i := by
  intro i hi
  rcases Nat.lt_or_ge i depth with hd | hd
  · rw [viewAt_shift hd, viewAt_shift hd]
    exact viewAt_effectiveView_congr b h hn i hi
  · rw [viewAt_of_length_le (by simp [hd]), viewAt_of_length_le (by simp [hd])]

end Agreement

theorem toNat_nextCount_le (f : Fdet) : (nextCount f).toNat ≤ f.seen.toNat + 1 :=
  (toNat_nextCount f).trans_le (Nat.mod_le _ _)

/-! ## The PUSH branches on two FDETs that differ in unfilled positions -/

section SameBranches
variable {cfg : Config} {f g : Fdet} (b : Byte)

theorem nextCount_congr (h : f.seen = g.seen) : nextCount f = nextCount g := congrArg (· + 1#32) h

/-- Equal registers but the window, a count of at most one byte more, and the shift: the new byte is the one position
more that the count takes in. -/
theorem same_shifted {p : Phase} {n d : Word} (h : SameButUnfilled f g) (hn : n.toNat ≤ f.seen.toNat + 1) :
    SameButUnfilled ⟨p, n, d, shiftWindow cfg.winDepth f.win b⟩ ⟨p, n, d, shiftWindow cfg.winDepth g.win b⟩ := by
  obtain ⟨-, -, -, hlen, hwin⟩ := h
  exact ⟨rfl, rfl, rfl, by simp [hlen], viewAt_shiftWindow_congr b hwin hn _⟩

/-- A count that goes on in its phase. -/
theorem same_counted (h : SameButUnfilled f g) :
    SameButUnfilled { f with seen := nextCount f, win := shiftWindow cfg.winDepth f.win b }
      { g with seen := nextCount g, win := shiftWindow cfg.winDepth g.win b } := by
  have ⟨hphase, hseen, hdeclared, _⟩ := h
  rw [← hphase, ← hdeclared, ← nextCount_congr hseen]
  exact same_shifted b h (toNat_nextCount_le f)

/-- The qualification holds the matcher back until the phase has filled what it reads (40 R106). -/
theorem syncHit_of_same (hl : cfg.legal = true) (hq : cfg.syncQual = .qualified) (h : SameButUnfilled f g) :
    syncHit cfg f b = syncHit cfg g b := by
  obtain ⟨-, hseen, -, -, hwin⟩ := h
  have hmatch (hS : cfg.S ≤ (nextCount f).toNat) : detectSync cfg.policy (effectiveView f.win b) =
      detectSync cfg.policy (effectiveView g.win b) :=
    detectSync_congr (viewAt_effectiveView_congr b hwin (hS.trans (toNat_nextCount_le f)))
  rw [Bool.eq_iff_iff, syncHit_iff hl, syncHit_iff hl, ← nextCount_congr hseen]
  simp only [hq, reduceCtorEq, false_or]
  exact and_congr_left fun hS => by rw [hmatch hS]

theorem lfsBranch_same (hl : cfg.legal = true) (hq : cfg.syncQual = .qualified) (h : SameButUnfilled f g) :
    SameButUnfilled (lfsBranch cfg f b).1 (lfsBranch cfg g b).1 ∧ (lfsBranch cfg f b).2 = (lfsBranch cfg g b).2 := by
  have ⟨_, hseen, hdeclared, _⟩ := h
  have hhit := syncHit_of_same b hl hq h
  cases hf : syncHit cfg f b with
  | true =>
    obtain ⟨-, hlit | hS⟩ := (syncHit_iff hl f b).1 hf
    · simp [hq] at hlit
    · have hnoise : noiseCount cfg f = noiseCount cfg g := congrArg (· - _) (nextCount_congr hseen)
      rw [lfsBranch_hit hf, lfsBranch_hit (hhit.symm.trans hf), hnoise, hdeclared]
      refine ⟨same_shifted b h ?_, rfl⟩
      rw [toNat_syncLengthWord hl]
      exact hS.trans (toNat_nextCount_le f)
  | false =>
    rw [lfsBranch_miss hf, lfsBranch_miss (hhit.symm.trans hf)]
    exact ⟨same_counted b h, rfl⟩

/-- At n = H the phase has filled the whole header. -/
theorem wfhBranch_same (hl : cfg.legal = true) (h : SameButUnfilled f g) :
    SameButUnfilled (wfhBranch cfg f b).1 (wfhBranch cfg g b).1 ∧ (wfhBranch cfg f b).2 = (wfhBranch cfg g b).2 := by
  have ⟨_, hseen, _, _, hwin⟩ := h
  have hcomplete : headerComplete cfg f = headerComplete cfg g := by
    rw [headerComplete, headerComplete, nextCount_congr hseen]
  cases hf : headerComplete cfg f with
  | true =>
    have hH := (headerComplete_iff hl f).1 hf
    have hlen : decodeBodyLength cfg.policy (effectiveView f.win b) =
        decodeBodyLength cfg.policy (effectiveView g.win b) :=
      decodeBodyLength_congr (viewAt_effectiveView_congr b hwin (hH.symm.trans_le (toNat_nextCount_le f)))
    rw [wfhBranch_complete hf, wfhBranch_complete (hcomplete.symm.trans hf), ← hlen, ← nextCount_congr hseen]
    exact ⟨same_shifted b h (toNat_nextCount_le f), rfl⟩
  | false =>
    rw [wfhBranch_open hf, wfhBranch_open (hcomplete.symm.trans hf)]
    exact ⟨same_counted b h, rfl⟩

/-- A body is counted, not read. -/
theorem wfbBranch_same (h : SameButUnfilled f g) :
    SameButUnfilled (wfbBranch cfg f b).1 (wfbBranch cfg g b).1 ∧ (wfbBranch cfg f b).2 = (wfbBranch cfg g b).2 := by
  have ⟨_, hseen, hdeclared, _⟩ := h
  have hcomplete : frameComplete f = frameComplete g := by
    rw [frameComplete, frameComplete, nextCount_congr hseen, hdeclared]
  cases hf : frameComplete f with
  | true =>
    rw [wfbBranch_complete hf, wfbBranch_complete (hcomplete.symm.trans hf), hdeclared]
    exact ⟨same_shifted b h (Nat.zero_le _), rfl⟩
  | false =>
    rw [wfbBranch_open hf, wfbBranch_open (hcomplete.symm.trans hf)]
    exact ⟨same_counted b h, rfl⟩

end SameBranches

/-! ## Two runs that differ in unfilled positions -/

/-- Two machines of one legal QUALIFIED configuration whose FDETs, within the invariant, differ at most in window positions
the current phase has not filled. -/
structure SameDecisions (s u : State) : Prop where
  cfg_eq    : s.cfg = u.cfg
  legal     : s.cfg.legal = true
  qualified : s.cfg.syncQual = .qualified
  inv       : s.fdet.Inv s.cfg
  same      : SameButUnfilled s.fdet u.fdet

theorem systemPush_sameDecisions {s u : State} {x y : Fdet × Option Word} (b : Byte) (h : SameDecisions s u)
    (hinv : x.1.Inv s.cfg) (hsame : SameButUnfilled x.1 y.1) :
    SameDecisions (systemPush b x s) (systemPush b y u) :=
  ⟨h.cfg_eq, h.legal, h.qualified, hinv, hsame⟩

/-- Every operation of the phase goes on in both machines with one descriptor. -/
theorem exec_sameDecisions {i : Instr} {s u : State} (h : SameDecisions s u) (hw : i.wfIn s.fdet.phase = true) :
    ∃ t v, exec i s = .next t ∧ exec i u = .next v ∧ t.out = v.out ∧ SameDecisions t v := by
  have ⟨hcfg, hl, hq, hinv, hsame⟩ := h
  have hclear : SameDecisions (systemClear s) (systemClear u) :=
    ⟨hcfg, hl, hq, atReset_inv s.cfg, by simp [SameButUnfilled, hcfg]⟩
  cases i with
  | reset => exact ⟨_, _, rfl, rfl, rfl, hclear⟩
  | flush => exact ⟨_, _, rfl, rfl, rfl, hclear⟩
  | idle => exact ⟨_, _, rfl, rfl, rfl, hcfg, hl, hq, hinv, hsame⟩
  | pushLfs b =>
    have hp : s.fdet.phase = .lfs := by simpa [Instr.wfIn] using hw
    obtain ⟨hfdet, hout⟩ := lfsBranch_same b hl hq hsame
    rw [exec_pushLfs, exec_pushLfs, ← hcfg]
    exact ⟨_, _, rfl, rfl, hout, systemPush_sameDecisions b h (lfsBranch_inv b hl hp hinv) hfdet⟩
  | pushWfh b =>
    have hp : s.fdet.phase = .wfh := by simpa [Instr.wfIn] using hw
    obtain ⟨hfdet, hout⟩ := wfhBranch_same b hl hsame
    rw [exec_pushWfh, exec_pushWfh, ← hcfg]
    exact ⟨_, _, rfl, rfl, hout, systemPush_sameDecisions b h (wfhBranch_inv b hl hp hinv) hfdet⟩
  | pushWfb b =>
    have hp : s.fdet.phase = .wfb := by simpa [Instr.wfIn] using hw
    obtain ⟨hfdet, hout⟩ := wfbBranch_same b hsame
    rw [exec_pushWfb, exec_pushWfb, ← hcfg]
    exact ⟨_, _, rfl, rfl, hout, systemPush_sameDecisions b h (wfbBranch_inv b hp hinv) hfdet⟩
  | pushRsv b =>
    obtain ⟨-, hrsv, -⟩ := hinv
    exact absurd (by simpa [Instr.wfIn] using hw) hrsv

/-- One vector decodes to one operation in both machines, for their phases agree. -/
theorem clockCycle_sameDecisions {s u : State} (iv : InputVec) (h : SameDecisions s u) :
    ∃ t v, clockCycle iv s = .next t ∧ clockCycle iv u = .next v ∧ t.out = v.out ∧ SameDecisions t v := by
  have ⟨_, _, _, _, hphase, _⟩ := h
  rw [clockCycle, clockCycle, ← hphase]
  exact exec_sameDecisions h (decode_wfIn _ iv)

theorem runCycles_sameDecisions (ivs : List InputVec) {s u : State} (h : SameDecisions s u) :
    ∃ t v ds, runCycles ivs s = some (t, ds) ∧ runCycles ivs u = some (v, ds) ∧ SameDecisions t v := by
  induction ivs generalizing s u with
  | nil => exact ⟨s, u, [], rfl, rfl, h⟩
  | cons iv ivs ih =>
    obtain ⟨s', u', hs, hu, hout, h'⟩ := clockCycle_sameDecisions iv h
    obtain ⟨t, v, ds, ht, hv, hfinal⟩ := ih h'
    refine ⟨t, v, s'.out.toList ++ ds, ?_, ?_, hfinal⟩
    · simp [runCycles_cons ivs hs, ht]
    · simp [runCycles_cons ivs hu, hv, hout]

/-- Settles O56: the relation `SameDecisions` goes along both runs. -/
theorem qualifiedNeverReadsUnfilledWindow : Obligations.QualifiedNeverReadsUnfilledWindow := by
  intro ivs s u hcfg hl hq hinv _ hsame
  obtain ⟨t, v, ds, ht, hv, h⟩ := runCycles_sameDecisions ivs ⟨hcfg, hl, hq, hinv, hsame⟩
  exact ⟨t, v, ds, ht, hv, h.same⟩

/-! ## The window beside the ByteChannel -/

section LookBack
variable {s : State}

/-- The pushed byte enters both at once; the append overwrites only what was appended C bytes ago (43 R191). -/
theorem systemPush_lookBack {u : Fdet × Option Word} (b : Byte) (h : s.LookBack)
    (hc : isPowerOfTwo s.cfg.capacity = true) (hw : u.1.win = shiftWindow s.cfg.winDepth s.fdet.win b) :
    (systemPush b u s).LookBack := by
  intro i hi
  have hi' : i < s.cfg.winDepth := hi
  rw [systemPush_cfg, systemPush_bc, systemPush_fdet, hw, append_mem, append_wr, viewAt_shift hi', Nat.add_sub_cancel]
  cases i with
  | zero => exact ⟨fun _ _ => read?_write_same _ _ _, fun hwr => absurd hwr (by omega)⟩
  | succ j =>
    obtain ⟨hstored, hfill⟩ := h j (by omega)
    rw [viewAt_view_succ]
    refine ⟨fun hwr hcap => ?_, fun hwr => hfill (by omega)⟩
    have hne : storageIndex s.cfg.capacity (s.bc.wr - (j + 1)) ≠ storageIndex s.cfg.capacity s.bc.wr :=
      storageIndex_ne hc (by omega) (by omega)
    rw [read?_write_other _ b hne, show s.bc.wr - (j + 1) = s.bc.wr - 1 - j by omega]
    exact hstored (by omega) (by omega)

/-- Nothing is stored and every position holds the fill (10 R31, 43 R195). -/
theorem systemClear_lookBack (s : State) : (systemClear s).LookBack := by
  intro i _
  simp

/-- Every branch of a PUSH shifts the window (40 R104). -/
theorem exec_keeps_lookBack {i : Instr} {t : State} (h : s.LookBack) (hc : isPowerOfTwo s.cfg.capacity = true)
    (he : exec i s = .next t) : t.LookBack := by
  rcases exec_next_cases he with ⟨rfl, -⟩ | ⟨rfl, -⟩ | ⟨b, hpush⟩
  · exact systemClear_lookBack s
  · exact h
  · obtain ⟨hlfs, hwfh, hwfb⟩ := branch_win s.cfg s.fdet b
    rcases hpush with ⟨-, rfl⟩ | ⟨-, rfl⟩ | ⟨-, rfl⟩
    · exact systemPush_lookBack b h hc hlfs
    · exact systemPush_lookBack b h hc hwfh
    · exact systemPush_lookBack b h hc hwfb

/-- The consumer moves the read cursor, which no position of the window depends on. -/
theorem consumerTurn_keeps_lookBack {late : Bool} {t : State} (h : s.LookBack) (ht : consumerTurn late s = .next t) :
    t.LookBack := by
  rcases consumerTurn_next_cases ht with rfl | ⟨_, _, _, _, rfl⟩ | ⟨_, _, _, _, _, rfl⟩ | ⟨_, _, _, _, rfl⟩ |
    ⟨_, _, _, _, _, rfl⟩ | ⟨_, _, _, _, _, rfl⟩ <;> exact h

end LookBack

/-- Settles O52: a clock cycle, an IDLE cycle for want of a turn and a consumer turn each keep it. -/
theorem stepKeepsWindowEqualToChannel : Obligations.StepKeepsWindowEqualToChannel := by
  intro s t _ hback h
  obtain ⟨hl, ⟨iv, rest, -, hexec⟩ | ⟨-, -, rfl⟩ | ⟨late, rest, -, hturn⟩⟩ := step_next_cases h
  · have hrest : State.LookBack { s with turns := rest } := hback
    exact exec_keeps_lookBack hrest (legal_capacity hl) hexec
  · exact hback
  · have hrest : State.LookBack { s with turns := rest } := hback
    exact consumerTurn_keeps_lookBack hrest hturn

/-! ## The DescriptorChannel over a run -/

/-- A descriptor that fits is queued behind the others (43 R196). -/
theorem offer_eq_append {depth : Nat} {dq : List Word} {out : Option Word}
    (h : dq.length + out.toList.length ≤ depth) : offer depth dq out = dq ++ out.toList := by
  cases out with
  | none => simp [offer]
  | some d => exact if_pos h

/-- What a cycle emits is offered to DQ (43 R199), unless the cycle clears it. -/
theorem exec_dq {i : Instr} {s t : State} (h : exec i s = .next t) (hr : i.operation ≠ .reset)
    (hf : i.operation ≠ .flush) : t.dq = offer s.cfg.queueDepth s.dq t.out := by
  rcases exec_next_cases h with ⟨-, hop | hop⟩ | ⟨rfl, -⟩ | ⟨b, ⟨-, rfl⟩ | ⟨-, rfl⟩ | ⟨-, rfl⟩⟩
  · exact absurd hop hr
  · exact absurd hop hf
  all_goals rfl

/-- The operation of a vector with both clear bits 0 (30 R74). -/
theorem decode_operation_of_no_clear {iv : InputVec} (p : Phase) (hr : ivRst iv = false) (hf : ivFlush iv = false) :
    (decode p iv).operation ≠ .reset ∧ (decode p iv).operation ≠ .flush := by
  cases hv : ivValid iv with
  | false => simp [decode, hr, hf, hv, Instr.operation]
  | true => cases p <;> simp [decode, hr, hf, hv, pushBranch, Instr.operation]

/-- Settles O43, cycle by cycle: what a cycle emits is at the tail of DQ when the next one starts. -/
theorem descriptorsQueueInCycleOrder : Obligations.DescriptorsQueueInCycleOrder := by
  intro ivs
  induction ivs with
  | nil =>
    intro s t ds _ hrun _
    cases hrun
    exact (List.append_nil _).symm
  | cons iv ivs ih =>
    intro s t ds hclear hrun hfit
    obtain ⟨u, es, hcycle, hrest, rfl⟩ := runCycles_cons_some hrun
    obtain ⟨⟨hr, hf⟩, hclears⟩ := List.forall_mem_cons.1 hclear
    obtain ⟨hnr, hnf⟩ := decode_operation_of_no_clear s.fdet.phase hr hf
    obtain ⟨hcfg, -⟩ := exec_keeps_environment hcycle
    rw [List.length_append] at hfit
    have hdq : u.dq = s.dq ++ u.out.toList := (exec_dq hcycle hnr hnf).trans (offer_eq_append (by omega))
    have hfit' : u.dq.length + es.length ≤ u.cfg.queueDepth := by
      rw [hdq, hcfg, List.length_append]
      omega
    rw [ih u t es hclears hrest hfit', hdq, List.append_assoc]

end Sys2Proof.Machine
end

section
/-! SUPPORT. The decoder and the encoder on a vector given by its fields (spec/30_encoding.md R70, R74, R75), the bits an
operation does not name (R71) and the vectors of a stimulus line (R78, R79). They settle O1 to O7. -/

namespace Sys2Proof.Machine

/-! ## Decode of a vector given by its fields -/

/-- The dispatch of a PUSH on the phase (30 R75). -/
theorem decode_eq_pushBranch {iv : InputVec} (p : Phase) (hr : ivRst iv = false) (hf : ivFlush iv = false)
    (hv : ivValid iv = true) : decode p iv = pushBranch p (ivByte iv) := by
  simp [decode, hr, hf, hv]

section DecodeOfFields
variable (p : Phase) (f v : Bool) (b : Byte)

@[simp] theorem decode_resetVector : decode p (inputVector true f v b) = .reset f v b := by simp [decode]

@[simp] theorem decode_flushVector : decode p (inputVector false true v b) = .flush v b := by simp [decode]

@[simp] theorem decode_pushVector : decode p (inputVector false false true b) = pushBranch p b := by simp [decode]

@[simp] theorem decode_idleVector : decode p (inputVector false false false b) = .idle b := by simp [decode]

/-- The four branches of a PUSH share their vector (30 R75). -/
@[simp] theorem encode_pushBranch : encode (pushBranch p b) = inputVector false false true b := by cases p <;> rfl

end DecodeOfFields

/-! ## Decode and encode are inverse -/

/-- Settles O3, row by row of the opcode table: the state guard of a PUSH row fixes the phase, which names the branch. -/
theorem decodeOfEncodeIsIdentity : Obligations.DecodeOfEncodeIsIdentity := by
  intro p i hwf
  cases i with
  | reset f v b => exact decode_resetVector p f v b
  | flush v b => exact decode_flushVector p v b
  | pushLfs b =>
    obtain rfl : p = .lfs := eq_of_beq hwf
    exact decode_pushVector .lfs b
  | pushWfh b =>
    obtain rfl : p = .wfh := eq_of_beq hwf
    exact decode_pushVector .wfh b
  | pushWfb b =>
    obtain rfl : p = .wfb := eq_of_beq hwf
    exact decode_pushVector .wfb b
  | pushRsv b =>
    obtain rfl : p = .rsv := eq_of_beq hwf
    exact decode_pushVector .rsv b
  | idle b => exact decode_idleVector p b

/-- No bit of a vector is lost in decoding (30 R70; log 9): the fields are split in the priority order of 30 R74. -/
theorem encode_decode (p : Phase) (iv : InputVec) : encode (decode p iv) = iv := by
  rw [← inputVector_fields iv]
  cases ivRst iv with
  | true => rw [decode_resetVector, encode]
  | false =>
    cases ivFlush iv with
    | true => rw [decode_flushVector, encode]
    | false =>
      cases ivValid iv with
      | true => rw [decode_pushVector, encode_pushBranch]
      | false => rw [decode_idleVector, encode]

/-- Settles O4: nothing is lost, and the decoder follows the state guard. -/
theorem encodeOfDecodeIsIdentity : Obligations.EncodeOfDecodeIsIdentity :=
  fun p iv => ⟨encode_decode p iv, decode_wfIn p iv⟩

/-! ## The bits an operation does not name -/

section ExecOfOperation
variable {i j : Instr} (s : State)

theorem exec_of_operation_reset (h : i.operation = .reset) : exec i s = .next (systemClear s) := by
  cases i with
  | reset f v b => exact exec_reset f v b s
  | _ => cases h

theorem exec_of_operation_flush (h : i.operation = .flush) : exec i s = .next (systemClear s) := by
  cases i with
  | flush v b => exact exec_flush v b s
  | _ => cases h

theorem exec_of_operation_idle (h : i.operation = .idle) : exec i s = .next (systemIdle s) := by
  cases i with
  | idle b => exact exec_idle b s
  | _ => cases h

/-- Outside PUSH the operands, which are the bits the operation ignores, have no effect (30 R71). -/
theorem exec_eq_of_operation_eq (h : i.operation = j.operation) (hpush : i.operation ≠ .push) : exec i s = exec j s := by
  cases hi : i.operation with
  | reset => rw [exec_of_operation_reset s hi, exec_of_operation_reset s (h.symm.trans hi)]
  | flush => rw [exec_of_operation_flush s hi, exec_of_operation_flush s (h.symm.trans hi)]
  | push => exact absurd hi hpush
  | idle => rw [exec_of_operation_idle s hi, exec_of_operation_idle s (h.symm.trans hi)]

end ExecOfOperation

/-- Settles O6: the cycle runs the operation, whose meaning outside PUSH reads no operand. -/
theorem dontCareBitsHaveNoEffect : Obligations.DontCareBitsHaveNoEffect :=
  ⟨fun s _ _ h hpush => exec_eq_of_operation_eq s h hpush, decode_pushVector⟩

/-! ## The vectors of a stimulus line -/

/-- The byte fills the low bits of a vector whose byte is 0 (30 R70). -/
theorem inputVector_zero_or_byte (r f v : Bool) (b : Byte) :
    inputVector r f v 0x00#8 ||| b.zeroExtend 11 = inputVector r f v b := by
  refine BitVec.eq_of_getLsbD_eq fun k hk => ?_
  simp only [inputVector, BitVec.truncate_eq_setWidth, BitVec.getLsbD_or, BitVec.getLsbD_append, BitVec.getLsbD_setWidth]
  rcases Nat.lt_or_ge k 8 with hlow | hhigh
  · simp [hlow, hk]
  · simp [Nat.not_lt.2 hhigh, BitVec.getLsbD_of_ge b k hhigh]

/-- `PUSH b` is the canonical vector 0x100 with its byte (30 R78). -/
theorem decode_pushLine (p : Phase) (b : Byte) : decode p (0x100#11 ||| b.zeroExtend 11) = pushBranch p b :=
  (congrArg (decode p) (inputVector_zero_or_byte false false true b)).trans (decode_pushVector p b)

/-- `FLUSH b` is the canonical vector 0x300 with its byte (30 R78). -/
theorem decode_flushLine (p : Phase) (b : Byte) : decode p (0x300#11 ||| b.zeroExtend 11) = .flush true b :=
  (congrArg (decode p) (inputVector_zero_or_byte false true true b)).trans (decode_flushVector p true b)

/-- An IDLE line is the zero vector (30 R78). -/
theorem decode_idleLine (p : Phase) : decode p 0x000#11 = .idle 0x00#8 := decode_idleVector p 0x00#8

/-- Settles O7, line by line: a pseudo-line repeats the vector of its mnemonic (30 R79). -/
theorem scriptLinesExpandToTheirOperations : Obligations.ScriptLinesExpandToTheirOperations := by
  intro p b bs n
  refine ⟨?reset, ?flush, ?flushByte, ?push, ?idle, ?pushs, ?fill, ?idles⟩
  case reset => exact congrArg (fun i => [i]) (decode_resetVector p false false 0x00#8)
  case flush => exact congrArg (fun i => [i]) (decode_flushVector p false 0x00#8)
  case flushByte => simp only [StimLine.vectors, List.map_cons, List.map_nil, decode_flushLine]
  case push => simp only [StimLine.vectors, List.map_cons, List.map_nil, decode_pushLine]
  case idle => simp only [StimLine.vectors, List.map_cons, List.map_nil, decode_idleLine]
  case pushs => simp only [StimLine.vectors, List.map_map, Function.comp_def, decode_pushLine]
  case fill => simp only [StimLine.vectors, List.map_replicate, decode_pushLine]
  case idles => simp only [StimLine.vectors, List.map_replicate, decode_idleLine]

/-! ## The rows of the table -/

/-- The rows of 30 R74's table that match an operation's vector are those of its own operation. -/
theorem matchesVec_encode {r : OpRow} (hr : r ∈ opTable) (i : Instr) :
    r.matchesVec (encode i) = decide (r.op = i.operation) := by
  cases i with
  | reset f v b => exact Laws.EncodingMatchesRow.reset f v b r hr
  | flush v b => exact Laws.EncodingMatchesRow.flush v b r hr
  | pushLfs b => exact Laws.EncodingMatchesRow.pushLfs b r hr
  | pushWfh b => exact Laws.EncodingMatchesRow.pushWfh b r hr
  | pushWfb b => exact Laws.EncodingMatchesRow.pushWfb b r hr
  | pushRsv b => exact Laws.EncodingMatchesRow.pushRsv b r hr
  | idle b => exact Laws.EncodingMatchesRow.idle b r hr

theorem matchesVec_iff_operation {r : OpRow} (hr : r ∈ opTable) (p : Phase) (iv : InputVec) :
    r.matchesVec iv = true ↔ r.op = (decode p iv).operation := by
  have hrow := matchesVec_encode hr (decode p iv)
  rw [encode_decode] at hrow
  rw [hrow, decide_eq_true_iff]

theorem exists_row_of_operation (op : Operation) : ∃ r ∈ opTable, r.op = op := by
  cases op <;> decide

theorem row_eq_of_op_eq : ∀ q ∈ opTable, ∀ r ∈ opTable, q.op = r.op → q = r := by decide

/-- Settles O1: a row matches exactly when it is that of the operation decoded, and each operation has one row. -/
theorem everyVectorHasExactlyOneOperation : Obligations.EveryVectorHasExactlyOneOperation := by
  intro p iv
  obtain ⟨r, hr, hop⟩ := exists_row_of_operation (decode p iv).operation
  refine ⟨r, hr, (matchesVec_iff_operation hr p iv).2 hop, hop.symm, fun q hq hmatch => ?_⟩
  have hqop : q.op = (decode p iv).operation := (matchesVec_iff_operation hq p iv).1 hmatch
  exact row_eq_of_op_eq q hq r hr (hqop.trans hop.symm)

/-- Settles O2: the dispatch, at each of the four phases. -/
theorem pushBranchFollowsPhase : Obligations.PushBranchFollowsPhase :=
  fun _ hr hf hv => ⟨decode_eq_pushBranch .lfs hr hf hv, decode_eq_pushBranch .wfh hr hf hv,
    decode_eq_pushBranch .wfb hr hf hv, decode_eq_pushBranch .rsv hr hf hv⟩

/-- Settles O5, by running the decoder on each vector. -/
theorem writtenOutVectorsDecode : Obligations.WrittenOutVectorsDecode := by
  unfold Obligations.WrittenOutVectorsDecode
  decide

end Sys2Proof.Machine
end

section
/-! SUPPORT. The operations on the whole system, one by one: what RESET, FLUSH and IDLE leave (spec/40_sequencer.md R101 to
R103), and what a PUSH does in each phase, branch by branch (R105 to R116, R119). They settle O8, O13, O14, O16 and
O19 to O30. -/

namespace Sys2Proof.Machine

/-! ## The step, RESET, FLUSH and IDLE -/

/-- Settles O8: a scheduled clock turn is a clock cycle, and the decoder undoes the encoder in the operation's phase. -/
theorem stepRunsTheDecodedOperation : Obligations.StepRunsTheDecodedOperation := by
  intro s i rest hl hwf hturns
  rw [step_clock hl hturns, clockCycle, decodeOfEncodeIsIdentity _ i hwf]

/-- The clear as RESET and FLUSH are described (43 R200). -/
theorem systemClear_cleared (s : State) : SystemCleared s (systemClear s) := by
  simp [SystemCleared, SameEnvironment]

/-- Settles O13: a second clear finds the same environment, which is all that `SystemCleared` reads of the first state. -/
theorem resetWritesAllState : Obligations.ResetWritesAllState := by
  intro s f v b
  have hsecond : SystemCleared s (systemClear (systemClear s)) := systemClear_cleared (systemClear s)
  exact ⟨decode_resetVector _ f v b, systemClear s, exec_reset f v b s, systemClear_cleared s,
    systemClear (systemClear s), exec_reset f v b _, hsecond, rfl⟩

/-- Settles O14: FLUSH is the same clear, whatever byte is presented. -/
theorem flushWritesAllState : Obligations.FlushWritesAllState :=
  fun s v b => ⟨decode_flushVector _ v b, systemClear s, exec_flush v b s, systemClear_cleared s⟩

/-- Settles O16: an IDLE cycle writes the record of the ports alone. -/
theorem idleChangesNothing : Obligations.IdleChangesNothing :=
  fun s b => ⟨decode_idleVector _ b, systemIdle s, exec_idle b s, exec_keeps_environment (exec_idle b s), rfl, rfl, rfl, rfl⟩

/-! ## A PUSH cycle -/

/-- FDET's part of a PUSH, dispatched on its phase (30 R75); the reserved phase has none (40 R115). -/
def pushUpdate (cfg : Config) (f : Fdet) (b : Byte) : Fdet × Option Word :=
  match f.phase with
  | .lfs => lfsBranch cfg f b
  | .wfh => wfhBranch cfg f b
  | .wfb => wfbBranch cfg f b
  | .rsv => (f, none)

section PushUpdate
variable {cfg : Config} {f : Fdet} (b : Byte)

theorem pushUpdate_lfs (h : f.phase = .lfs) : pushUpdate cfg f b = lfsBranch cfg f b := by simp [pushUpdate, h]
theorem pushUpdate_wfh (h : f.phase = .wfh) : pushUpdate cfg f b = wfhBranch cfg f b := by simp [pushUpdate, h]
theorem pushUpdate_wfb (h : f.phase = .wfb) : pushUpdate cfg f b = wfbBranch cfg f b := by simp [pushUpdate, h]

end PushUpdate

/-- A PUSH cycle goes on in every phase but the reserved one. -/
theorem clockCycle_push_next (b : Byte) {s : State} (h : s.fdet.phase ≠ .rsv) :
    clockCycle (pushVector b) s = .next (systemPush b (pushUpdate s.cfg s.fdet b) s) := by
  rw [clockCycle_push]
  cases hp : s.fdet.phase with
  | lfs => rw [pushUpdate_lfs b hp, pushBranch, exec_pushLfs]
  | wfh => rw [pushUpdate_wfh b hp, pushBranch, exec_pushWfh]
  | wfb => rw [pushUpdate_wfb b hp, pushBranch, exec_pushWfb]
  | rsv => exact absurd hp h

/-! ## PUSH in LFS -/

section Sync
variable {s : State} {b : Byte}

/-- Without a sync the byte is counted, and nothing is emitted (40 R105). -/
theorem exec_pushLfs_of_miss (h : syncHit s.cfg s.fdet b = false) : ∃ t, exec (.pushLfs b) s = .next t ∧
    SystemPushed b none s t ∧ t.fdet.phase = s.fdet.phase ∧ t.fdet.seen = nextCount s.fdet ∧
    t.fdet.declared = s.fdet.declared := by
  rw [exec_pushLfs, lfsBranch_miss h]
  exact ⟨_, rfl, systemPush_pushed b _ s rfl, rfl, rfl, rfl⟩

/-- A sync credits S bytes to the header and emits minus the noise, unless it is 0 (40 R107, R108). -/
theorem exec_pushLfs_of_hit (hl : s.cfg.legal = true) (h : syncHit s.cfg s.fdet b = true) :
    ∃ t, exec (.pushLfs b) s = .next t ∧
      SystemPushed b (if noiseCount s.cfg s.fdet = 0#32 then none else some (discardDescriptor (noiseCount s.cfg s.fdet)))
        s t ∧
      t.fdet.phase = .wfh ∧ t.fdet.seen.toNat = s.cfg.S ∧ t.fdet.declared = s.fdet.declared := by
  rw [exec_pushLfs, lfsBranch_hit h]
  exact ⟨_, rfl, systemPush_pushed b _ s rfl, rfl, toNat_syncLengthWord hl, rfl⟩

/-- The noise n - S is 0 modulo 2^32 at n = S alone (40 R108). -/
theorem noiseCount_eq_zero_iff {cfg : Config} (hl : cfg.legal = true) (f : Fdet) :
    noiseCount cfg f = 0#32 ↔ (nextCount f).toNat = cfg.S := by
  rw [noiseCount, sub_eq_iff_eq_add, BitVec.zero_add, ← BitVec.toNat_inj, toNat_syncLengthWord hl]

/-- A sync with noise, or a straddling one, emits minus the noise. -/
theorem exec_pushLfs_of_noisy_hit (hl : s.cfg.legal = true) (h : syncHit s.cfg s.fdet b = true)
    (hn : (nextCount s.fdet).toNat ≠ s.cfg.S) : ∃ t, exec (.pushLfs b) s = .next t ∧
      SystemPushed b (some (discardDescriptor (noiseCount s.cfg s.fdet))) s t ∧
      t.fdet.phase = .wfh ∧ t.fdet.seen.toNat = s.cfg.S ∧ t.fdet.declared = s.fdet.declared := by
  have hnoise : noiseCount s.cfg s.fdet ≠ 0#32 := fun h0 => hn ((noiseCount_eq_zero_iff hl _).1 h0)
  simpa only [if_neg hnoise] using exec_pushLfs_of_hit hl h

end Sync

/-- Settles O19: the sync decision of 40 R106 is no. -/
theorem lfsPushWithoutSyncCounts : Obligations.LfsPushWithoutSyncCounts := by
  intro s b hl hp hno
  have hmiss : syncHit s.cfg s.fdet b = false := Bool.eq_false_iff.2 fun h => hno ((syncHit_iff hl _ b).1 h)
  rw [← hp]
  exact exec_pushLfs_of_miss hmiss

/-- Settles O20: WFH on a hit, LFS on a miss. -/
theorem syncDecisionIsMatchAndQualification : Obligations.SyncDecisionIsMatchAndQualification := by
  intro s b hl hp
  have hiff := syncHit_iff hl s.fdet b
  cases hhit : syncHit s.cfg s.fdet b with
  | true =>
    obtain ⟨t, hexec, -, hphase, -⟩ := exec_pushLfs_of_hit hl hhit
    exact ⟨t, hexec, iff_of_true hphase (hiff.1 hhit), fun hne => absurd hphase hne⟩
  | false =>
    obtain ⟨t, hexec, -, hphase, -⟩ := exec_pushLfs_of_miss hhit
    rw [hp] at hphase
    exact ⟨t, hexec, iff_of_false (by simp [hphase]) fun h => by simp [hiff.2 h] at hhit, fun _ => hphase⟩

/-- Settles O21: the noise n - S is not 0 and does not wrap. -/
theorem lfsSyncAfterNoiseEmitsDiscard : Obligations.LfsSyncAfterNoiseEmitsDiscard := by
  intro s b hl _ hmatch hn
  change s.cfg.S < (nextCount s.fdet).toNat at hn
  have hhit : syncHit s.cfg s.fdet b = true := (syncHit_iff hl _ b).2 ⟨hmatch, .inr hn.le⟩
  have hnoise := toNat_noiseCount hl hn.le
  have hne : noiseCount s.cfg s.fdet ≠ 0#32 := fun h => hn.ne' ((noiseCount_eq_zero_iff hl _).1 h)
  obtain ⟨t, hexec, hpushed, hphase, hseen, hdeclared⟩ := exec_pushLfs_of_noisy_hit hl hhit hn.ne'
  refine ⟨t, _, hexec, hpushed, hphase, hseen, hdeclared, ?_, fun hle => ?_⟩
  · rw [discardDescriptor, toNat_neg32 hne, hnoise]
    rfl
  · rw [asI32_discard hne (hnoise.trans_le hle), hnoise, Nat.cast_sub hn.le]
    rfl

/-- Settles O22: the noise is 0. -/
theorem lfsSyncWithoutNoiseIsSilent : Obligations.LfsSyncWithoutNoiseIsSilent := by
  intro s b hl _ hmatch hn
  have hhit : syncHit s.cfg s.fdet b = true := (syncHit_iff hl _ b).2 ⟨hmatch, .inr hn.ge⟩
  have hnoise : noiseCount s.cfg s.fdet = 0#32 := (noiseCount_eq_zero_iff hl _).2 hn
  simpa only [if_pos hnoise] using exec_pushLfs_of_hit hl hhit

/-- The count wraps to 0 from 2^32 - 1 and from no other value (40 R119). -/
theorem toNat_nextCount_eq_zero_iff (f : Fdet) : (nextCount f).toNat = 0 ↔ f.seen = 0xFFFFFFFF#32 := by
  have := f.seen.isLt
  rw [toNat_nextCount, ← BitVec.toNat_inj, BitVec.toNat_ofNat]
  omega

/-- Minus the noise of a straddling sync is S - n, small and positive (40 R109). -/
theorem asI32_discard_straddle {cfg : Config} (hl : cfg.legal = true) {f : Fdet} (hn : (nextCount f).toNat < cfg.S) :
    asI32 (discardDescriptor (noiseCount cfg f)) = (cfg.S : Int) - ((nextCount f).toNat : Int) := by
  have hbounds := legal_bounds hl
  have hnoise := toNat_noiseCount_straddle hl hn
  have hne : noiseCount cfg f ≠ 0 := fun h => hn.ne ((noiseCount_eq_zero_iff hl f).1 h)
  have hword : (discardDescriptor (noiseCount cfg f)).toNat = cfg.S - (nextCount f).toNat := by
    rw [discardDescriptor, toNat_neg32 hne, hnoise]
    omega
  rw [asI32_of_lt (by omega), hword, Nat.cast_sub hn.le]

/-- Settles O23: LITERAL takes the match for a sync; S - n reads as S for n = 0 alone. -/
theorem literalStraddleEmitsPositive : Obligations.LiteralStraddleEmitsPositive := by
  intro s b hl _ hliteral hmatch hn
  change (nextCount s.fdet).toNat < s.cfg.S at hn
  have hhit : syncHit s.cfg s.fdet b = true := (syncHit_iff hl _ b).2 ⟨hmatch, .inl hliteral⟩
  have hvalue := asI32_discard_straddle hl hn
  obtain ⟨t, hexec, hpushed, hphase, hseen, hdeclared⟩ := exec_pushLfs_of_noisy_hit hl hhit hn.ne
  refine ⟨t, _, hexec, hpushed, hphase, hseen, hdeclared, hvalue, ?_, ?_, ?_⟩
  · omega
  · omega
  · rw [hvalue, ← toNat_nextCount_eq_zero_iff]
    omega

/-- Settles O24: n = 0 is below S, so that QUALIFIED holds the matcher back. -/
theorem seenWrapsSilently : Obligations.SeenWrapsSilently := by
  intro s b hl hp hseen hno
  have hn : (nextCount s.fdet).toNat = 0 := (toNat_nextCount_eq_zero_iff _).2 hseen
  obtain ⟨hS, -, -⟩ := legal_bounds hl
  have hmiss : syncHit s.cfg s.fdet b = false := by
    refine Bool.eq_false_iff.2 fun h => ?_
    obtain ⟨hmatch, hqual⟩ := (syncHit_iff hl _ b).1 h
    rcases hno with hq | hm
    · rcases hqual with hliteral | hle
      · simp [hq] at hliteral
      · omega
    · simp [hm] at hmatch
  obtain ⟨t, hexec, hpushed, hphase, hcount, hdeclared⟩ := exec_pushLfs_of_miss hmiss
  exact ⟨t, hexec, hcount.trans (BitVec.eq_of_toNat_eq hn), hphase.trans hp, hdeclared, hpushed⟩

/-! ## PUSH in WFH, WFB and the reserved phase -/

/-- Settles O25: the byte does not complete the header, and is counted. -/
theorem wfhPushBeforeHeaderEndCounts : Obligations.WfhPushBeforeHeaderEndCounts := by
  intro s b hl hp hn
  have hopen : headerComplete s.cfg s.fdet = false := Bool.eq_false_iff.2 fun h => hn ((headerComplete_iff hl _).1 h)
  rw [exec_pushWfh, wfhBranch_open hopen]
  exact ⟨_, rfl, systemPush_pushed b _ s rfl, hp, rfl, rfl⟩

/-- Settles O26: the policy keeps its contract (41 R142). -/
theorem wfhPushAtHeaderEndDecodesLength : Obligations.WfhPushAtHeaderEndDecodesLength := by
  intro s b hl _ hn
  have hlength := (lengthInContract_iff _ _).1
    (legal_decodeBodyLength_inContract (legal_policy hl) (effectiveView s.fdet.win b))
  rw [exec_pushWfh, wfhBranch_complete ((headerComplete_iff hl _).2 hn)]
  exact ⟨_, rfl, systemPush_pushed b _ s rfl, rfl, hn, rfl, hlength⟩

/-- Settles O27: the byte does not complete the frame, and is counted. -/
theorem wfbPushBeforeFrameEndCounts : Obligations.WfbPushBeforeFrameEndCounts := by
  intro s b hp hn
  rw [exec_pushWfb, wfbBranch_open (beq_false_of_ne hn)]
  exact ⟨_, rfl, systemPush_pushed b _ s rfl, hp, rfl, rfl⟩

/-- Settles O28: the byte completes the frame, and the descriptor is `declared` as it stands. -/
theorem wfbPushAtFrameEndEmitsMessage : Obligations.WfbPushAtFrameEndEmitsMessage := by
  intro s b _ hn
  rw [exec_pushWfb, wfbBranch_complete (beq_iff_eq.2 hn)]
  exact ⟨_, rfl, systemPush_pushed b _ s rfl, rfl, rfl, rfl⟩

/-- Settles O29: the phase picks the branch that faults (30 R75, 40 R115). -/
theorem pushInReservedPhaseFaults : Obligations.PushInReservedPhaseFaults := by
  intro s b hp
  have hexec : exec (.pushRsv b) s = .fault (.reservedPhase (pushVector b)) := exec_pushRsv b s
  refine ⟨?_, hexec, rfl⟩
  rw [clockCycle_push, hp]
  exact hexec

/-- Inside a frame the completion is a matter of the count, and in WFB of `declared` (40 R116). -/
theorem pushUpdate_reads_count_only (cfg : Config) {f : Fdet} (b c : Byte) (win : List Byte)
    (hp : f.phase = .wfh ∨ f.phase = .wfb) :
    (pushUpdate cfg f b).1.phase = (pushUpdate cfg { f with win := win } c).1.phase ∧
    (pushUpdate cfg f b).1.seen = (pushUpdate cfg { f with win := win } c).1.seen ∧
    (pushUpdate cfg f b).2 = (pushUpdate cfg { f with win := win } c).2 := by
  rcases hp with hp | hp
  · rw [pushUpdate_wfh b hp, pushUpdate_wfh (f := { f with win := win }) c hp]
    cases hc : headerComplete cfg f with
    | true => simp [wfhBranch_complete hc, wfhBranch_complete (f := { f with win := win }) hc, nextCount]
    | false => simp [wfhBranch_open hc, wfhBranch_open (f := { f with win := win }) hc, nextCount]
  · rw [pushUpdate_wfb b hp, pushUpdate_wfb (f := { f with win := win }) c hp]
    cases hc : frameComplete f with
    | true => simp [wfbBranch_complete hc, wfbBranch_complete (f := { f with win := win }) hc]
    | false => simp [wfbBranch_open hc, wfbBranch_open (f := { f with win := win }) hc, nextCount]

/-- Settles O30: neither phase is the reserved one, and the branch reads the count alone. -/
theorem onlyTheCountMattersInsideAFrame : Obligations.OnlyTheCountMattersInsideAFrame := by
  intro s b c win hp
  have hrsv : s.fdet.phase ≠ .rsv := by rcases hp with hp | hp <;> simp [hp]
  exact ⟨_, _, clockCycle_push_next b hrsv, clockCycle_push_next c hrsv, pushUpdate_reads_count_only s.cfg b c win hp⟩

end Sys2Proof.Machine
end

section
/-! SUPPORT. Runs of clock cycles that cannot be told apart (spec/40_sequencer.md R102, R103; 43_environment.md R200): a run
and its IDLE cycles, and a run after a FLUSH and what came before. They settle O17 and O18. -/

namespace Sys2Proof.Machine

/-- Two runs behind one descriptor list look alike when they looked alike before it. -/
theorem map_prepended_congr {α : Type} {F : State × List Word → α} (ds : List Word)
    (hF : ∀ r q, F r = F q → F (r.1, ds ++ r.2) = F (q.1, ds ++ q.2)) {x y : Option (State × List Word)}
    (h : x.map F = y.map F) :
    (x.map fun r => (r.1, ds ++ r.2)).map F = (y.map fun r => (r.1, ds ++ r.2)).map F := by
  cases x with
  | none =>
    cases y with
    | none => rfl
    | some q => cases h
  | some r =>
    cases y with
    | none => cases h
    | some q => exact congrArg some (hF r q (Option.some.inj h))

theorem runCycles_cons_of_fault {iv : InputVec} {s : State} {f : Fault} (rest : List InputVec)
    (h : clockCycle iv s = .fault f) : runCycles (iv :: rest) s = none := by
  simp [runCycles, h]

/-- A cycle goes on or faults; none is refused. -/
theorem clockCycle_next_or_fault (iv : InputVec) (s : State) :
    (∃ t, clockCycle iv s = .next t) ∨ ∃ f, clockCycle iv s = .fault f := by
  unfold clockCycle
  cases decode s.fdet.phase iv with
  | pushRsv b => exact .inr ⟨_, exec_pushRsv b s⟩
  | _ => exact .inl ⟨_, rfl⟩

/-! ## IDLE cycles -/

theorem forgetOutput_prepended (ds : List Word) (r q : State × List Word) (h : forgetOutput r = forgetOutput q) :
    forgetOutput (r.1, ds ++ r.2) = forgetOutput (q.1, ds ++ q.2) := by
  obtain ⟨hstate, hds⟩ := Prod.mk.inj h
  simp only [forgetOutput, hstate, hds]

/-- No operation reads the record of the ports, and each writes it. -/
theorem exec_systemIdle (i : Instr) (s : State) : exec i (systemIdle s) = exec i s := by
  cases i <;> rfl

/-- So an IDLE cycle before a run leaves no trace in it. -/
theorem runCycles_systemIdle (ivs : List InputVec) (s : State) :
    (runCycles ivs (systemIdle s)).map forgetOutput = (runCycles ivs s).map forgetOutput := by
  cases ivs with
  | nil => rfl
  | cons iv ivs =>
    have hcycle : clockCycle iv (systemIdle s) = clockCycle iv s := exec_systemIdle _ s
    rw [runCycles, runCycles, hcycle]

/-- The vectors of an IDLE cycle (30 R74). -/
theorem clockCycle_idle {iv : InputVec} (s : State) (h : (ivRst iv || ivFlush iv || ivValid iv) = false) :
    clockCycle iv s = .next (systemIdle s) := by
  simp only [Bool.or_eq_false_iff] at h
  obtain ⟨⟨hr, hf⟩, hv⟩ := h
  simp [clockCycle, decode, hr, hf, hv]

/-- Settles O17, cycle by cycle: an IDLE cycle emits nothing, and the run after it does not show it. -/
theorem idleCyclesCanBeLeftOut : Obligations.IdleCyclesCanBeLeftOut := by
  intro ivs
  induction ivs with
  | nil => exact fun s => rfl
  | cons iv ivs ih =>
    intro s
    cases hactive : ivRst iv || ivFlush iv || ivValid iv with
    | false =>
      rw [List.filter_cons_of_neg (by simp [hactive]), runCycles_cons ivs (clockCycle_idle s hactive)]
      calc ((runCycles ivs (systemIdle s)).map fun r => (r.1, r.2)).map forgetOutput
        _ = (runCycles ivs (systemIdle s)).map forgetOutput := by rw [Option.map_id']
        _ = _ := ih (systemIdle s)
        _ = _ := runCycles_systemIdle _ s
    | true =>
      rw [List.filter_cons_of_pos (by simp [hactive])]
      rcases clockCycle_next_or_fault iv s with ⟨t, ht⟩ | ⟨f, hf⟩
      · rw [runCycles_cons _ ht, runCycles_cons _ ht]
        exact map_prepended_congr t.out.toList (forgetOutput_prepended _) (ih t)
      · rw [runCycles_cons_of_fault _ hf, runCycles_cons_of_fault _ hf]

/-! ## The past of a FLUSH -/

/-- Two machines of one configuration that agree on FDET, the ports and both channels, but for the model's own count of
resets (log 11). -/
structure SameVisible (s u : State) : Prop where
  cfg_eq  : s.cfg = u.cfg
  fdet_eq : s.fdet = u.fdet
  out_eq  : s.out = u.out
  dq_eq   : s.dq = u.dq
  bc_eq   : { s.bc with epoch := 0 } = { u.bc with epoch := 0 }

section SameVisible
variable {s u : State}

/-- A clear leaves nothing but the configuration of what was there. -/
theorem systemClear_sameVisible (h : s.cfg = u.cfg) : SameVisible (systemClear s) (systemClear u) :=
  ⟨h, congrArg (fun c : Config => Fdet.atReset c.winDepth) h, rfl, rfl, rfl⟩

theorem systemIdle_sameVisible (h : SameVisible s u) : SameVisible (systemIdle s) (systemIdle u) :=
  ⟨h.cfg_eq, h.fdet_eq, rfl, h.dq_eq, h.bc_eq⟩

/-- The count of resets plays no part in an append. -/
theorem append_epoch_zero (capacity : Nat) (ch : ByteChannel) (b : Byte) :
    { ch.append capacity b with epoch := 0 } = ByteChannel.append capacity { ch with epoch := 0 } b := rfl

theorem systemPush_sameVisible (b : Byte) (x : Fdet × Option Word) (h : SameVisible s u) :
    SameVisible (systemPush b x s) (systemPush b x u) := by
  refine ⟨h.cfg_eq, rfl, rfl, ?_, ?_⟩
  · rw [systemPush_dq, systemPush_dq, h.cfg_eq, h.dq_eq]
  · rw [systemPush_bc, systemPush_bc, append_epoch_zero, append_epoch_zero, h.cfg_eq, h.bc_eq]

/-- One operation in two such machines: both go on, alike, or both fault. -/
theorem exec_sameVisible (i : Instr) (h : SameVisible s u) :
    (∃ t v, exec i s = .next t ∧ exec i u = .next v ∧ SameVisible t v) ∨
    ∃ f, exec i s = .fault f ∧ exec i u = .fault f := by
  cases i with
  | reset => exact .inl ⟨_, _, rfl, rfl, systemClear_sameVisible h.cfg_eq⟩
  | flush => exact .inl ⟨_, _, rfl, rfl, systemClear_sameVisible h.cfg_eq⟩
  | idle => exact .inl ⟨_, _, rfl, rfl, systemIdle_sameVisible h⟩
  | pushLfs b =>
    rw [exec_pushLfs, exec_pushLfs, ← h.cfg_eq, ← h.fdet_eq]
    exact .inl ⟨_, _, rfl, rfl, systemPush_sameVisible b _ h⟩
  | pushWfh b =>
    rw [exec_pushWfh, exec_pushWfh, ← h.cfg_eq, ← h.fdet_eq]
    exact .inl ⟨_, _, rfl, rfl, systemPush_sameVisible b _ h⟩
  | pushWfb b =>
    rw [exec_pushWfb, exec_pushWfb, ← h.cfg_eq, ← h.fdet_eq]
    exact .inl ⟨_, _, rfl, rfl, systemPush_sameVisible b _ h⟩
  | pushRsv b => exact .inr ⟨_, exec_pushRsv b s, exec_pushRsv b u⟩

end SameVisible

theorem visiblePart_prepended (ds : List Word) (r q : State × List Word) (h : visiblePart r = visiblePart q) :
    visiblePart (r.1, ds ++ r.2) = visiblePart (q.1, ds ++ q.2) := by
  simp only [visiblePart, Prod.mk.injEq] at h ⊢
  obtain ⟨hfdet, hout, hdq, hbc, hds⟩ := h
  exact ⟨hfdet, hout, hdq, hbc, by rw [hds]⟩

theorem runCycles_sameVisible (ivs : List InputVec) {s u : State} (h : SameVisible s u) :
    (runCycles ivs s).map visiblePart = (runCycles ivs u).map visiblePart := by
  induction ivs generalizing s u with
  | nil => simp [visiblePart, h.fdet_eq, h.out_eq, h.dq_eq, h.bc_eq]
  | cons iv ivs ih =>
    have hcycle := exec_sameVisible (decode s.fdet.phase iv) h
    rw [← clockCycle, h.fdet_eq, ← clockCycle] at hcycle
    rcases hcycle with ⟨t, v, ht, hv, htv⟩ | ⟨f, hs, hu⟩
    · rw [runCycles_cons ivs ht, runCycles_cons ivs hv, ← htv.out_eq]
      exact map_prepended_congr t.out.toList (visiblePart_prepended _) (ih htv)
    · rw [runCycles_cons_of_fault ivs hs, runCycles_cons_of_fault ivs hu]

theorem clockCycle_flush (v : Bool) (b : Byte) (s : State) :
    clockCycle (inputVector false true v b) s = .next (systemClear s) := by
  rw [clockCycle, decode_flushVector, exec_flush]

/-- Settles O18: the FLUSH makes the two machines alike, and the later cycles keep them so. -/
theorem flushForgetsThePast : Obligations.FlushForgetsThePast := by
  intro s u v b ivs hcfg
  have hsame := runCycles_sameVisible ivs (systemClear_sameVisible hcfg)
  rw [runCycles_cons ivs (clockCycle_flush v b s), runCycles_cons ivs (clockCycle_flush v b u)]
  exact map_prepended_congr [] (visiblePart_prepended []) hsame

end Sys2Proof.Machine
end

section
/-! SUPPORT. The accounting of pushed bytes (spec/40_sequencer.md R118): under QUALIFIED, and while the count keeps its
meaning (70_reset_and_hazards.md R248), a PUSH adds one byte to what its descriptor and `seen` count; a turn of the consumer
moves bytes between queue, hand and channel. They settle O55 and O59. -/

namespace Sys2Proof.Machine

/-! ## What descriptors count -/

@[simp] theorem countedBytes_nil : countedBytes [] = 0 := rfl

@[simp] theorem countedBytes_cons (d : Word) (ds : List Word) :
    countedBytes (d :: ds) = descriptorBytes d + countedBytes ds := rfl

@[simp] theorem countedBytes_append (ds es : List Word) : countedBytes (ds ++ es) = countedBytes ds + countedBytes es := by
  simp [countedBytes]

/-- A message counts its length (42 R173). -/
theorem descriptorBytes_message {d : Word} (h : d.toNat < 2 ^ 31) : descriptorBytes (messageDescriptor d) = d.toNat := by
  rw [descriptorBytes, messageDescriptor, asI32_of_lt h, Int.natAbs_natCast]

/-- A discard descriptor counts the noise (42 R172). -/
theorem descriptorBytes_discard {x : Word} (h0 : x ≠ 0) (h : x.toNat ≤ 2 ^ 31) :
    descriptorBytes (discardDescriptor x) = x.toNat := by
  rw [descriptorBytes, asI32_discard h0 h, Int.natAbs_neg, Int.natAbs_natCast]

/-! ## A PUSH counts one byte -/

section Counting
variable {cfg : Config} {f : Fdet} (b : Byte)

/-- A sync splits its count n into the noise, which it emits, and the S bytes credited to the header. -/
theorem lfsBranch_counts (hl : cfg.legal = true) (hq : cfg.syncQual = .qualified) (hseen : f.seen.toNat < 2 ^ 31) :
    countedBytes (lfsBranch cfg f b).2.toList + (lfsBranch cfg f b).1.seen.toNat = f.seen.toNat + 1 := by
  have hn : (nextCount f).toNat = f.seen.toNat + 1 := toNat_nextCount_of_lt (by omega)
  cases hhit : syncHit cfg f b with
  | true =>
    obtain ⟨-, hlit | hS⟩ := (syncHit_iff hl f b).1 hhit
    · simp [hq] at hlit
    · have hnoise := toNat_noiseCount hl hS
      rw [lfsBranch_hit hhit]
      by_cases hz : noiseCount cfg f = 0#32
      · have hnS := (noiseCount_eq_zero_iff hl f).1 hz
        rw [if_pos hz, toNat_syncLengthWord hl, Option.toList_none, countedBytes_nil]
        omega
      · have hbytes := descriptorBytes_discard hz (by omega)
        rw [if_neg hz, toNat_syncLengthWord hl, Option.toList_some, countedBytes_cons, countedBytes_nil, hbytes]
        omega
  | false => simp [lfsBranch_miss hhit, hn]

theorem wfhBranch_counts (hseen : f.seen.toNat < 2 ^ 31) :
    countedBytes (wfhBranch cfg f b).2.toList + (wfhBranch cfg f b).1.seen.toNat = f.seen.toNat + 1 := by
  have hn : (nextCount f).toNat = f.seen.toNat + 1 := toNat_nextCount_of_lt (by omega)
  cases hc : headerComplete cfg f with
  | true => simp [wfhBranch_complete hc, hn]
  | false => simp [wfhBranch_open hc, hn]

/-- The last byte of a frame gives the whole count to its descriptor. -/
theorem wfbBranch_counts (hp : f.phase = .wfb) (hi : f.Inv cfg) :
    countedBytes (wfbBranch cfg f b).2.toList + (wfbBranch cfg f b).1.seen.toNat = f.seen.toNat + 1 := by
  obtain ⟨-, -, -, hbody⟩ := hi
  obtain ⟨-, hseen, -, hmax⟩ := hbody hp
  have hn : (nextCount f).toNat = f.seen.toNat + 1 := toNat_nextCount_of_lt (by omega)
  cases hc : frameComplete f with
  | true =>
    have hnd := (frameComplete_iff f).1 hc
    have hbytes : descriptorBytes (messageDescriptor f.declared) = f.declared.toNat := descriptorBytes_message (by omega)
    simp [wfbBranch_complete hc, hbytes, ← hnd, hn]
  | false => simp [wfbBranch_open hc, hn]

theorem pushUpdate_counts (hl : cfg.legal = true) (hq : cfg.syncQual = .qualified) (hi : f.Inv cfg)
    (hseen : f.seen.toNat < 2 ^ 31) :
    countedBytes (pushUpdate cfg f b).2.toList + (pushUpdate cfg f b).1.seen.toNat = f.seen.toNat + 1 := by
  have ⟨_, hrsv, _⟩ := hi
  cases hp : f.phase with
  | lfs => rw [pushUpdate_lfs b hp]; exact lfsBranch_counts b hl hq hseen
  | wfh => rw [pushUpdate_wfh b hp]; exact wfhBranch_counts b hseen
  | wfb => rw [pushUpdate_wfb b hp]; exact wfbBranch_counts b hp hi
  | rsv => exact absurd hp hrsv

theorem pushUpdate_inv (hl : cfg.legal = true) (hi : f.Inv cfg) : (pushUpdate cfg f b).1.Inv cfg := by
  have ⟨_, hrsv, _⟩ := hi
  cases hp : f.phase with
  | lfs => rw [pushUpdate_lfs b hp]; exact lfsBranch_inv b hl hp hi
  | wfh => rw [pushUpdate_wfh b hp]; exact wfhBranch_inv b hl hp hi
  | wfb => rw [pushUpdate_wfb b hp]; exact wfbBranch_inv b hp hi
  | rsv => exact absurd hp hrsv

end Counting

/-! ## A run of pushes -/

/-- Each push adds one byte to what is counted, from any state of FDET's invariant on. -/
theorem runCycles_push_counts (bs : List Byte) {s : State} (hl : s.cfg.legal = true) (hq : s.cfg.syncQual = .qualified)
    (hi : s.fdet.Inv s.cfg) (hlen : s.fdet.seen.toNat + bs.length ≤ 2 ^ 31) :
    ∃ t ds, runCycles (bs.map pushVector) s = some (t, ds) ∧
      countedBytes ds + t.fdet.seen.toNat = s.fdet.seen.toNat + bs.length := by
  induction bs generalizing s with
  | nil => exact ⟨s, [], rfl, by simp⟩
  | cons b bs ih =>
    have ⟨_, hrsv, _⟩ := hi
    rw [List.length_cons] at hlen
    have hone := pushUpdate_counts b hl hq hi (by omega)
    obtain ⟨t, ds, hrun, hcount⟩ := ih (s := systemPush b (pushUpdate s.cfg s.fdet b) s) hl hq (pushUpdate_inv b hl hi)
      (by rw [systemPush_fdet]; omega)
    refine ⟨t, (pushUpdate s.cfg s.fdet b).2.toList ++ ds, ?_, ?_⟩
    · rw [List.map_cons, runCycles_cons _ (clockCycle_push_next b hrsv), hrun]
      rfl
    · rw [systemPush_fdet] at hcount
      rw [countedBytes_append, List.length_cons]
      omega

/-- Settles O55: at launch nothing is counted and nothing seen. -/
theorem everyPushedByteIsCountedOnce : Obligations.EveryPushedByteIsCountedOnce := by
  intro cfg bs hl hq hlen
  have hseen : (State.launch cfg).fdet.seen.toNat = 0 := rfl
  obtain ⟨t, ds, hrun, hcount⟩ :=
    runCycles_push_counts bs (s := State.launch cfg) hl hq (atReset_inv cfg) (by omega)
  exact ⟨t, ds, hrun, by omega⟩

/-! ## The alignment of descriptors with unread bytes -/

section Aligned
variable {s : State}

/-- A turn of the consumer moves the bytes of one descriptor: from the queue to its hand, or out of the channel. What it
owes a held descriptor is among the unread bytes, so it does not underrun (43 R205). -/
theorem consumerTurn_keeps_aligned (late : Bool) (h : s.Aligned) : ∃ t, consumerTurn late s = .next t ∧ t.Aligned := by
  rcases consumerTurn_total late s with ⟨t, ht⟩ | ⟨cap, d, hr, hu, -⟩
  · refine ⟨t, ht, ?_⟩
    rcases consumerTurn_next_cases ht with rfl | ⟨_, _, hr, _, rfl⟩ | ⟨_, d, rest, hr, hd, rfl⟩ | ⟨_, hr, _, _, rfl⟩ |
      ⟨_, d, hr, _, _, rfl⟩ | ⟨_, d, hr, _, _, rfl⟩
    · exact h
    · simpa [State.Aligned, hr, heldBytes] using h
    · simpa [State.Aligned, hr, hd, heldBytes, descriptorBytes] using h
    · simpa [State.Aligned, hr, heldBytes] using h
    · simp only [State.Aligned, hr, heldBytes, advance_wr, advance_rd, descriptorBytes] at h ⊢
      omega
    · simp only [State.Aligned, hr, heldBytes, advance_wr, advance_rd, descriptorBytes] at h ⊢
      omega
  · simp only [State.Aligned, hr, heldBytes] at h
    simp only [ByteChannel.unread, descriptorBytes] at hu
    omega

theorem systemClear_aligned (h : heldBytes s.reader = 0) : (systemClear s).Aligned := by
  simp [State.Aligned, h]

end Aligned

section Room
variable {s : State} (hs : s.Inv) (h : s.Aligned) (hq : s.cfg.syncQual = .qualified)
  (hdq : s.dq.length < s.cfg.queueDepth) (hbc : s.bc.wr - s.bc.rd < s.cfg.capacity) (hseen : s.fdet.seen.toNat < 2 ^ 31)
include hs h hq hdq hbc hseen

/-- With room in both channels, the byte a PUSH appends is the byte it counts. -/
theorem systemPush_aligned (b : Byte) : (systemPush b (pushUpdate s.cfg s.fdet b) s).Aligned := by
  obtain ⟨hl, hf, ⟨hrd, -⟩, -⟩ := hs
  have hone := pushUpdate_counts b hl hq hf hseen
  have hfit : s.dq.length + (pushUpdate s.cfg s.fdet b).2.toList.length ≤ s.cfg.queueDepth := by
    cases (pushUpdate s.cfg s.fdet b).2 <;> simp <;> omega
  simp only [State.Aligned] at h ⊢
  rw [systemPush_bc, systemPush_reader, systemPush_dq, systemPush_fdet, offer_eq_append hfit, countedBytes_append,
    append_wr, append_rd, if_neg (by omega)]
  omega

/-- A clock cycle that is no clear while a descriptor is held. -/
theorem clockCycle_keeps_aligned {iv : InputVec}
    (hclear : ivRst iv = true ∨ ivFlush iv = true → heldBytes s.reader = 0) :
    ∃ t, clockCycle iv s = .next t ∧ t.Aligned := by
  rw [← inputVector_fields iv]
  cases hr : ivRst iv with
  | true =>
    rw [clockCycle, decode_resetVector]
    exact ⟨_, exec_reset _ _ _ s, systemClear_aligned (hclear (.inl hr))⟩
  | false =>
    cases hf : ivFlush iv with
    | true => exact ⟨_, clockCycle_flush _ _ s, systemClear_aligned (hclear (.inr hf))⟩
    | false =>
      cases hv : ivValid iv with
      | true =>
        have ⟨_, ⟨_, hrsv, _⟩, _⟩ := hs
        exact ⟨_, clockCycle_push_next _ hrsv, systemPush_aligned hs h hq hdq hbc hseen _⟩
      | false =>
        rw [clockCycle, decode_idleVector]
        exact ⟨_, exec_idle _ s, h⟩

end Room

/-- Settles O59, by the kind of turn that comes next. -/
theorem alignedStepStaysAlignedAndGoesOn : Obligations.AlignedStepStaysAlignedAndGoesOn := by
  intro s hs h hroom
  have ⟨hl, _⟩ := hs
  have ⟨hq, hdq, hbc, hseen, hclear⟩ := hroom
  cases ht : s.turns with
  | nil =>
    by_cases hr : s.reader = .idle
    · exact ⟨_, step_unscheduled_idle hl ht hr, h⟩
    · rw [step_unscheduled_call hl ht hr]
      exact consumerTurn_keeps_aligned true h
  | cons turn rest =>
    cases turn with
    | clock iv =>
      rw [step_clock hl ht]
      exact clockCycle_keeps_aligned (s := { s with turns := rest }) hs h hq hdq hbc hseen (hclear iv (by rw [ht]; rfl))
    | consumer late =>
      rw [step_consumer hl ht]
      exact consumerTurn_keeps_aligned late h

end Sys2Proof.Machine
end

section
/-! SUPPORT. A frame under QUALIFIED (spec/40_sequencer.md R108, R110 to R114): after k of its bytes FDET has seen k, stands in
the phase k tells, and holds the newest of them in its window. It settles O57. -/

namespace Sys2Proof.Machine

/-! ## FDET inside a frame -/

/-- The phase after the first k bytes of a frame. -/
def framePhase (cfg : Config) (k : Nat) : Phase := if k < cfg.S then .lfs else if k < cfg.H then .wfh else .wfb

section FramePhase
variable {cfg : Config} {k : Nat}

theorem framePhase_lfs (h : k < cfg.S) : framePhase cfg k = .lfs := if_pos h

theorem framePhase_wfh (hS : cfg.S ≤ k) (hH : k < cfg.H) : framePhase cfg k = .wfh := by
  rw [framePhase, if_neg hS.not_gt, if_pos hH]

theorem framePhase_wfb (hl : cfg.legal = true) (hH : cfg.H ≤ k) : framePhase cfg k = .wfb := by
  obtain ⟨-, hSH, -⟩ := legal_bounds hl
  rw [framePhase, if_neg (by omega), if_neg hH.not_gt]

end FramePhase

/-- FDET after the first k bytes of a frame, k below its length. -/
structure InFrame (cfg : Config) (frame : List Byte) (k : Nat) (f : Fdet) : Prop where
  phase    : f.phase = framePhase cfg k
  seen     : f.seen.toNat = k
  declared : cfg.H ≤ k → f.declared.toNat = frame.length
  win      : ∀ i < min k cfg.winDepth, viewAt f.win i = viewAt (frame.take k).reverse i

section Frame
variable {cfg : Config} {frame : List Byte} {k : Nat} {f : Fdet}

/-- One byte later the view holds the newest bytes pushed so far. -/
theorem InFrame.view {n : Nat} (h : InFrame cfg frame k f) (hk : k < frame.length) (hn : n ≤ k + 1) (hH : n ≤ cfg.H) :
    ∀ i < n, viewAt (effectiveView f.win frame[k]) i = viewAt (frame.take (k + 1)).reverse i := by
  have hview : (frame.take (k + 1)).reverse = effectiveView (frame.take k).reverse frame[k] := by
    rw [← List.take_append_getElem hk, List.reverse_concat, effectiveView]
  have hdepth : cfg.winDepth = cfg.H - 1 := rfl
  rw [hview]
  exact viewAt_effectiveView_congr _ h.win (by omega)

/-- What a PUSH inside a frame has to show of its new registers. -/
theorem InFrame.shifted {p : Phase} {n d : Word} (h : InFrame cfg frame k f) (hk : k < frame.length)
    (hp : p = framePhase cfg (k + 1)) (hn : n.toNat = k + 1) (hd : cfg.H ≤ k + 1 → d.toNat = frame.length) :
    InFrame cfg frame (k + 1) ⟨p, n, d, shiftWindow cfg.winDepth f.win frame[k]⟩ := by
  refine ⟨hp, hn, hd, fun i hi => ?_⟩
  have hdepth : cfg.winDepth = cfg.H - 1 := rfl
  rw [viewAt_shift (by omega)]
  exact h.view hk (Nat.min_le_left (k + 1) cfg.H) (Nat.min_le_right _ _) i (by omega)

/-- A byte that ends no part of the frame is counted. -/
theorem InFrame.counted (h : InFrame cfg frame k f) (hk : k < frame.length)
    (hp : framePhase cfg k = framePhase cfg (k + 1)) (hn : (nextCount f).toNat = k + 1)
    (hd : cfg.H ≤ k + 1 → cfg.H ≤ k) :
    InFrame cfg frame (k + 1) { f with seen := nextCount f, win := shiftWindow cfg.winDepth f.win frame[k] } :=
  h.shifted hk (h.phase.trans hp) hn fun hH => h.declared (hd hH)

/-- A frame is shorter than 2^32 bytes, its length being a word (41 R142), so that the count does not wrap in it. -/
theorem InFrame.toNat_nextCount (h : InFrame cfg frame k f) (hframe : IsFrame cfg frame) (hk : k < frame.length) :
    (nextCount f).toNat = k + 1 := by
  obtain ⟨-, -, hlen⟩ := hframe
  have hlt := (decodeBodyLength cfg.policy (frame.take cfg.H).reverse).isLt
  have hseen := h.seen
  rw [toNat_nextCount_of_lt (by omega), hseen]

section Bytes
variable (hl : cfg.legal = true) (hframe : IsFrame cfg frame) (h : InFrame cfg frame k f) (hk : k < frame.length)
include hl hframe h hk

/-- Below S bytes the qualification holds the matcher back; at S bytes the sync has no noise (40 R106, R108). -/
theorem InFrame.push_lfs (hq : cfg.syncQual = .qualified) (hS : k < cfg.S) :
    (pushUpdate cfg f frame[k]).2 = none ∧ InFrame cfg frame (k + 1) (pushUpdate cfg f frame[k]).1 := by
  obtain ⟨-, hSH, -⟩ := legal_bounds hl
  have hn := h.toNat_nextCount hframe hk
  rw [pushUpdate_lfs _ (h.phase.trans (framePhase_lfs hS))]
  rcases Nat.lt_or_eq_of_le (Nat.succ_le_of_lt hS) with hlt | heq
  · have hmiss : syncHit cfg f frame[k] = false := by
      refine Bool.eq_false_iff.2 fun hhit => ?_
      obtain ⟨-, hlit | hle⟩ := (syncHit_iff hl f _).1 hhit
      · simp [hq] at hlit
      · omega
    rw [lfsBranch_miss hmiss]
    exact ⟨rfl, h.counted hk ((framePhase_lfs hS).trans (framePhase_lfs hlt).symm) hn (by omega)⟩
  · obtain ⟨-, hsync, -⟩ := hframe
    have hmatch : detectSync cfg.policy (effectiveView f.win frame[k]) = true := by
      rw [← hsync, ← heq]
      exact detectSync_congr (h.view hk heq.ge hSH.le)
    have hhit : syncHit cfg f frame[k] = true := (syncHit_iff hl f _).2 ⟨hmatch, .inr (by omega)⟩
    have hnoise : noiseCount cfg f = 0#32 := (noiseCount_eq_zero_iff hl f).2 (hn.trans heq)
    rw [lfsBranch_hit hhit, if_pos hnoise]
    exact ⟨rfl, h.shifted hk (framePhase_wfh heq.ge (by omega)).symm ((toNat_syncLengthWord hl).trans heq.symm)
      (by omega)⟩

/-- At H bytes the policy decodes the frame's length from them (40 R112). -/
theorem InFrame.push_wfh (hS : cfg.S ≤ k) (hH : k < cfg.H) :
    (pushUpdate cfg f frame[k]).2 = none ∧ InFrame cfg frame (k + 1) (pushUpdate cfg f frame[k]).1 := by
  have hn := h.toNat_nextCount hframe hk
  rw [pushUpdate_wfh _ (h.phase.trans (framePhase_wfh hS hH))]
  rcases Nat.lt_or_eq_of_le (Nat.succ_le_of_lt hH) with hlt | heq
  · have hopen : headerComplete cfg f = false :=
      Bool.eq_false_iff.2 fun hc => by
        have := (headerComplete_iff hl f).1 hc
        omega
    rw [wfhBranch_open hopen]
    exact ⟨rfl, h.counted hk ((framePhase_wfh hS hH).trans (framePhase_wfh (by omega) hlt).symm) hn (by omega)⟩
  · obtain ⟨-, -, hlen⟩ := hframe
    have hdecode : (decodeBodyLength cfg.policy (effectiveView f.win frame[k])).toNat = frame.length := by
      rw [← hlen, ← heq]
      exact congrArg BitVec.toNat (decodeBodyLength_congr (h.view hk heq.ge le_rfl))
    rw [wfhBranch_complete ((headerComplete_iff hl f).2 (hn.trans heq))]
    exact ⟨rfl, h.shifted hk (framePhase_wfb hl heq.ge).symm hn fun _ => hdecode⟩

/-- In the body a byte before the last is counted (40 R113). -/
theorem InFrame.push_wfb (hH : cfg.H ≤ k) (hlast : k + 1 < frame.length) :
    (pushUpdate cfg f frame[k]).2 = none ∧ InFrame cfg frame (k + 1) (pushUpdate cfg f frame[k]).1 := by
  have hn := h.toNat_nextCount hframe hk
  have hopen : frameComplete f = false :=
    Bool.eq_false_iff.2 fun hc => by
      have := (frameComplete_iff f).1 hc
      have := h.declared hH
      omega
  rw [pushUpdate_wfb _ (h.phase.trans (framePhase_wfb hl hH)), wfbBranch_open hopen]
  exact ⟨rfl, h.counted hk ((framePhase_wfb hl hH).trans (framePhase_wfb hl (by omega)).symm) hn fun _ => hH⟩

/-- The last byte emits the frame's length (40 R114). -/
theorem InFrame.push_last (hlast : k + 1 = frame.length) :
    pushUpdate cfg f frame[k] =
      (⟨.lfs, 0#32, f.declared, shiftWindow cfg.winDepth f.win frame[k]⟩, some (BitVec.ofNat 32 frame.length)) ∧
    f.declared.toNat = frame.length := by
  have hn := h.toNat_nextCount hframe hk
  obtain ⟨hlong, -⟩ := hframe
  have hH : cfg.H ≤ k := by omega
  have hdeclared := h.declared hH
  have hcomplete : frameComplete f = true := (frameComplete_iff f).2 (by omega)
  have hword : messageDescriptor f.declared = BitVec.ofNat 32 frame.length := by
    rw [← hdeclared, BitVec.ofNat_toNat, BitVec.setWidth_eq, messageDescriptor]
  rw [pushUpdate_wfb _ (h.phase.trans (framePhase_wfb hl hH)), wfbBranch_complete hcomplete, hword]
  exact ⟨rfl, hdeclared⟩

end Bytes

/-- Every byte before the last is silent, whatever part of the frame it stands in. -/
theorem InFrame.push (hl : cfg.legal = true) (hq : cfg.syncQual = .qualified) (hframe : IsFrame cfg frame)
    (h : InFrame cfg frame k f) (hlast : k + 1 < frame.length) :
    (pushUpdate cfg f frame[k]).2 = none ∧ InFrame cfg frame (k + 1) (pushUpdate cfg f frame[k]).1 := by
  rcases Nat.lt_or_ge k cfg.S with hS | hS
  · exact h.push_lfs hl hframe (by omega) hq hS
  · rcases Nat.lt_or_ge k cfg.H with hH | hH
    · exact h.push_wfh hl hframe (by omega) hS hH
    · exact h.push_wfb hl hframe (by omega) hH hlast

theorem InFrame.phase_ne_rsv (h : InFrame cfg frame k f) : f.phase ≠ .rsv := by
  rw [h.phase, framePhase]
  split
  · simp
  · split <;> simp

end Frame

/-! ## The run of a frame -/

/-- One more cycle at the end of a run. -/
theorem runCycles_concat {ivs : List InputVec} {iv : InputVec} {s u t : State} {ds : List Word}
    (h : runCycles ivs s = some (u, ds)) (ht : clockCycle iv u = .next t) :
    runCycles (ivs ++ [iv]) s = some (t, ds ++ t.out.toList) := by
  induction ivs generalizing s ds with
  | nil =>
    cases h
    simp [runCycles_cons [] ht]
  | cons jv ivs ih =>
    obtain ⟨v, es, hv, hrest, rfl⟩ := runCycles_cons_some h
    rw [List.cons_append, runCycles_cons _ hv, ih hrest, List.append_assoc]
    rfl

/-- The push of the next byte of a list, after the run of those before it. -/
theorem runCycles_take_succ {frame : List Byte} {k : Nat} {s u : State} {ds : List Word} (hk : k < frame.length)
    (h : runCycles ((frame.take k).map pushVector) s = some (u, ds)) (hrsv : u.fdet.phase ≠ .rsv) :
    runCycles ((frame.take (k + 1)).map pushVector) s =
      some (systemPush frame[k] (pushUpdate u.cfg u.fdet frame[k]) u,
        ds ++ (pushUpdate u.cfg u.fdet frame[k]).2.toList) := by
  rw [← List.take_append_getElem hk, List.map_append]
  exact runCycles_concat h (clockCycle_push_next _ hrsv)

/-- Short of its last byte a frame is silent and leaves FDET inside the frame. -/
theorem runCycles_inFrame {s : State} {frame : List Byte} (hl : s.cfg.legal = true) (hq : s.cfg.syncQual = .qualified)
    (hp : s.fdet.phase = .lfs) (hseen : s.fdet.seen = 0#32) (hframe : IsFrame s.cfg frame) {k : Nat}
    (hk : k < frame.length) :
    ∃ u, runCycles ((frame.take k).map pushVector) s = some (u, []) ∧ u.cfg = s.cfg ∧ InFrame s.cfg frame k u.fdet := by
  induction k with
  | zero =>
    obtain ⟨hS, hSH, -⟩ := legal_bounds hl
    exact ⟨s, rfl, rfl, hp.trans (framePhase_lfs hS).symm, by rw [hseen]; rfl, fun hH => by omega,
      fun i hi => by omega⟩
  | succ k ih =>
    obtain ⟨u, hrun, hcfg, hin⟩ := ih (by omega)
    obtain ⟨hsilent, hnext⟩ := hin.push hl hq hframe hk
    have hrun' := runCycles_take_succ (by omega) hrun hin.phase_ne_rsv
    rw [hcfg, hsilent] at hrun'
    exact ⟨_, hrun', hcfg, hnext⟩

/-- Settles O57: the bytes before the last are silent, and the last one emits the length. -/
theorem frameEmitsExactlyItsLength : Obligations.FrameEmitsExactlyItsLength := by
  intro s frame hl hq _ hp hseen hframe
  obtain ⟨n, hn⟩ : ∃ n, n + 1 = frame.length := by
    obtain ⟨hlong, -⟩ := hframe
    exact ⟨frame.length - 1, by omega⟩
  obtain ⟨u, hrun, hcfg, hin⟩ := runCycles_inFrame hl hq hp hseen hframe (k := n) (by omega)
  obtain ⟨hlast, hdeclared⟩ := hin.push_last hl hframe (by omega) hn
  have hrun' := runCycles_take_succ (by omega) hrun hin.phase_ne_rsv
  rw [hcfg, hlast, hn, List.take_length] at hrun'
  refine ⟨_, hrun', rfl, rfl, hdeclared, fun k hk => ?_⟩
  obtain ⟨v, hv, -⟩ := runCycles_inFrame hl hq hp hseen hframe hk
  exact ⟨v, hv⟩

end Sys2Proof.Machine
end

section
/-! SUPPORT. The syncs and lengths of the reference policies in numbers (spec/41_policy.md R144 to R150), the contract of a
legal policy (R142), and the tables of GENERIC (R140 to R142); they settle O31 to O35 and O37. -/

namespace Sys2Proof.Machine

/-! ## The reference policies -/

theorem detectSync_a_iff (view : List Byte) :
    detectSync .a view = true ↔ viewAt view 1 = 0xB5#8 ∧ viewAt view 0 = 0x62#8 := by
  simp [detectSync, detectSyncA]

/-- The six bits that R148's mask keeps are zero in the bytes 0x00 .. 0x03. -/
theorem and_FC_eq_zero_iff : ∀ b : Byte, b &&& 0xFC#8 = 0x00#8 ↔ b.toNat ≤ 3 := by decide

theorem detectSync_b_iff (view : List Byte) :
    detectSync .b view = true ↔ viewAt view 1 = 0xD3#8 ∧ (viewAt view 0).toNat ≤ 3 := by
  simp [detectSync, detectSyncB, and_FC_eq_zero_iff]

/-- At the first push after a reset the byte before it reads as the fill, whatever the window's depth (41 R144, R148). -/
theorem detectSync_a_of_zero_window (n : Nat) (b : Byte) :
    detectSync .a (effectiveView (List.replicate n 0x00#8) b) = false := by
  simp [Bool.eq_false_iff, detectSync_a_iff]

theorem detectSync_b_of_zero_window (n : Nat) (b : Byte) :
    detectSync .b (effectiveView (List.replicate n 0x00#8) b) = false := by
  simp [Bool.eq_false_iff, detectSync_b_iff]

/-- Settles O31: the matcher's two comparisons, on the views of R144's examples and over the zero window. -/
theorem policyASyncIsB5Then62 : Obligations.PolicyASyncIsB5Then62 :=
  ⟨detectSync_a_iff, by decide, by decide, by decide, detectSync_a_of_zero_window _⟩

/-- Settles O33: R148's mask is the bound 3, and the zero window holds no 0xD3. -/
theorem policyBSyncIsD3ThenSixZeroBits : Obligations.PolicyBSyncIsD3ThenSixZeroBits :=
  ⟨detectSync_b_iff, by decide, by decide, detectSync_b_of_zero_window _⟩

/-- Settles O32: R145's formula, and its range by the range of a byte. -/
theorem policyALengthIsLittleEndianPlus8 : Obligations.PolicyALengthIsLittleEndianPlus8 := by
  intro view
  have hvalue : (decodeBodyLength .a view).toNat = (viewAt view 1).toNat + 256 * (viewAt view 0).toNat + 8 :=
    toNat_decodeA view
  have h0 := (viewAt view 0).isLt
  have h1 := (viewAt view 1).isLt
  exact ⟨hvalue, by omega, by omega⟩

/-- Settles O34: R150's formula, and its range by the range of a byte. -/
theorem policyBLengthIsBytePlus6 : Obligations.PolicyBLengthIsBytePlus6 := by
  intro view
  have hvalue : (decodeBodyLength .b view).toNat = (viewAt view 0).toNat + 6 := toNat_decodeB view
  have h0 := (viewAt view 0).isLt
  exact ⟨hvalue, by omega, by omega⟩

/-! ## The contract -/

/-- Settles O35, from the check a legal configuration passes (00 R7). -/
theorem legalPolicyMeetsItsContract : Obligations.LegalPolicyMeetsItsContract :=
  fun _ view hp => (lengthInContract_iff _ _).1 (legal_decodeBodyLength_inContract hp view)

/-! ## GENERIC's tables -/

/-- The strings of one length are finitely many, so that a table can hold a row for each. -/
theorem exists_list_of_length (n : Nat) : ∃ ks : List (List Byte), ∀ k, k ∈ ks ↔ k.length = n := by
  have : Finite Byte := Finite.of_equiv _ BitVec.equivFin.symm.toEquiv
  exact ⟨(List.finite_length_eq Byte n).toFinset.toList, fun k => by simp⟩

/-- The table policy of two functions: `syncs` are the strings `sync` is tabulated on, `headers` those of `len`. The default
is the length of a header that has a row, so that it is in the contract too (log 4). -/
def tabulated (S H : Nat) (sync : List Byte → Bool) (len : List Byte → Word) (syncs headers : List (List Byte)) :
    GenericPolicy where
  s             := S
  h             := H
  syncs         := syncs.filter sync
  lengths       := headers.map fun k => (k, len k)
  lengthDefault := len (List.replicate H 0x00#8)

section Tabulated
variable {S H : Nat} {sync : List Byte → Bool} {len : List Byte → Word} {syncs headers : List (List Byte)}

theorem detectSync_tabulated (hsyncs : ∀ k, k ∈ syncs ↔ k.length = S) (view : List Byte) :
    detectSync (.generic (tabulated S H sync len syncs headers)) view = sync (newestBytes view S) := by
  have hmem : newestBytes view S ∈ syncs := (hsyncs _).2 (length_newestBytes view S)
  refine Bool.eq_iff_iff.2 ?_
  simp [detectSync, detectSyncGeneric, tabulated, hmem]

theorem decodeBodyLength_tabulated (hheaders : ∀ k, k ∈ headers ↔ k.length = H) (view : List Byte) :
    decodeBodyLength (.generic (tabulated S H sync len syncs headers)) view = len (newestBytes view H) := by
  have hmem : newestBytes view H ∈ headers := (hheaders _).2 (length_newestBytes view H)
  simp [decodeBodyLength, decodeBodyLengthGeneric, tabulated, List.lookup_graph len hmem]

/-- The rows have the two lengths by the enumeration, and their values are in range by the contract (41 R142). -/
theorem tabulated_legal (hsyncs : ∀ k, k ∈ syncs ↔ k.length = S) (hheaders : ∀ k, k ∈ headers ↔ k.length = H)
    (hS : 1 ≤ S) (hSH : S < H) (hH : H ≤ 64) (hlen : ∀ k : List Byte, k.length = H → lengthInContract H (len k) = true) :
    (Policy.generic (tabulated S H sync len syncs headers)).legal = true := by
  refine (policy_legal_iff _).2 ⟨hS, hSH, hH, ?_, ?_, (meets_genericLengthsInRange_iff _).2 ⟨?_, ?_⟩⟩
  · simp +contextual [Policy.meets, tabulated, hsyncs]
  · simp [Policy.meets, tabulated, hheaders]
  · exact hlen _ List.length_replicate
  · simpa [tabulated, hheaders] using hlen

end Tabulated

/-- Settles O37: tabulate both functions on all strings of S and of H bytes. -/
theorem genericPolicyCanBeAnyContractFunctions : Obligations.GenericPolicyCanBeAnyContractFunctions := by
  intro S H sync len hS hSH hH hlen
  obtain ⟨syncs, hsyncs⟩ := exists_list_of_length S
  obtain ⟨headers, hheaders⟩ := exists_list_of_length H
  exact ⟨tabulated S H sync len syncs headers, rfl, rfl,
    tabulated_legal hsyncs hheaders hS hSH hH fun k hk => (lengthInContract_iff H _).2 (hlen k hk),
    fun view => ⟨detectSync_tabulated hsyncs view, decodeBodyLength_tabulated hheaders view⟩⟩

end Sys2Proof.Machine
end

section
/-! SUPPORT. Descriptors (spec/42_descriptor.md): which operations emit one and what it says (R171, R173 to R175), what its
consumer reads in it (30_encoding.md R73, 42 R176, R177), and that neither channel has a say in it (42 R179). They settle
O38 to O42. -/

namespace Sys2Proof.Machine

/-! ## Who emits -/

section Emission
variable {cfg : Config} {f : Fdet} {b : Byte} {d : Word}

/-- PUSH.LFS emits on a sync with noise, and goes to WFH (40 R107). -/
theorem lfsBranch_eq_some (h : (lfsBranch cfg f b).2 = some d) :
    (lfsBranch cfg f b).1.phase = .wfh ∧ noiseCount cfg f ≠ 0#32 := by
  cases hhit : syncHit cfg f b with
  | true =>
    rw [lfsBranch_hit hhit] at h ⊢
    exact ⟨rfl, fun hz => by simp [hz] at h⟩
  | false => simp [lfsBranch_miss hhit] at h

/-- PUSH.WFB emits at the frame's last byte, and goes to LFS (40 R114). -/
theorem wfbBranch_eq_some (h : (wfbBranch cfg f b).2 = some d) :
    (wfbBranch cfg f b).1.phase = .lfs ∧ nextCount f = f.declared ∧ d = f.declared := by
  cases hc : frameComplete f with
  | true =>
    rw [wfbBranch_complete hc] at h ⊢
    exact ⟨rfl, beq_iff_eq.1 hc, (Option.some.inj h).symm⟩
  | false => simp [wfbBranch_open hc] at h

end Emission

/-- The two ways an operation that goes on can emit (42 R171). -/
theorem exec_out_eq_some_cases {i : Instr} {s t : State} {d : Word} (h : exec i s = .next t) (hd : t.out = some d) :
    (∃ b, i = .pushLfs b ∧ t.fdet.phase = .wfh ∧ noiseCount s.cfg s.fdet ≠ 0#32) ∨
    ∃ b, i = .pushWfb b ∧ t.fdet.phase = .lfs ∧ nextCount s.fdet = s.fdet.declared ∧ d = s.fdet.declared := by
  rcases exec_next_cases h with ⟨rfl, -⟩ | ⟨rfl, -⟩ | ⟨b, ⟨hi, rfl⟩ | ⟨-, rfl⟩ | ⟨hi, rfl⟩⟩
  · simp at hd
  · simp at hd
  · exact .inl ⟨b, hi, lfsBranch_eq_some hd⟩
  · simp [wfhBranch_emits_nothing] at hd
  · exact .inr ⟨b, hi, wfbBranch_eq_some hd⟩

/-- Settles O38: the noise of a sync is 0 at n = S alone. -/
theorem onlyTwoBranchesEmit : Obligations.OnlyTwoBranchesEmit := by
  intro s t i d hl h hd
  rcases exec_out_eq_some_cases h hd with ⟨b, hi, hphase, hnoise⟩ | ⟨b, hi, hphase, hn, -⟩
  · exact .inl ⟨b, hi, hphase, fun hS => hnoise ((noiseCount_eq_zero_iff hl s.fdet).2 hS)⟩
  · exact .inr ⟨b, hi, hphase, hn⟩

/-! ## What a descriptor means -/

section Meaning
variable {d : Word}

theorem descriptorMeaning_of_pos (h : 0 < asI32 d) : descriptorMeaning d = .message (descriptorBytes d) := if_pos h

theorem descriptorMeaning_of_neg (h : asI32 d < 0) : descriptorMeaning d = .discard (descriptorBytes d) := by
  rw [descriptorMeaning, if_neg h.not_gt, if_pos h, descriptorBytes]

/-- A word in 1 .. 2^31 - 1 is a message of as many bytes (30 R73). -/
theorem descriptorMeaning_eq_message (hpos : 0 < d.toNat) (hlt : d.toNat < 2 ^ 31) :
    descriptorMeaning d = .message d.toNat := by
  have hvalue := asI32_of_lt hlt
  rw [descriptorMeaning_of_pos (by omega), descriptorBytes, hvalue, Int.natAbs_natCast]

end Meaning

/-- Settles O39: a cycle keeps the invariant, which excludes the descriptor 0; a message is `declared`, which 10 R30 bounds
in a body. -/
theorem zeroIsNeverEmitted : Obligations.ZeroIsNeverEmitted := by
  intro s t i d hs hw h hd
  obtain ⟨-, -, -, -, -, hz, -⟩ := exec_keeps_inv hs hw h
  refine ⟨fun h0 => hz (h0 ▸ hd), ?_⟩
  rintro ⟨b, rfl⟩
  have hp : s.fdet.phase = .wfb := by simpa [Instr.wfIn] using hw
  obtain ⟨-, ⟨-, -, -, hbody⟩, -⟩ := hs
  obtain ⟨-, -, hH, hmax⟩ := hbody hp
  obtain ⟨b', hi, -⟩ | ⟨b', -, -, -, rfl⟩ := exec_out_eq_some_cases h hd
  · cases hi
  · exact ⟨hH, descriptorMeaning_eq_message (by omega) (by omega)⟩

/-! ## The noise in a descriptor -/

/-- Settles O40: minus the noise is below 0, a discard, and its size is the noise again. -/
theorem discardDescriptorIsMinusTheNoise : Obligations.DiscardDescriptorIsMinusTheNoise := by
  intro noise hpos hmax
  have hne : noise ≠ 0 := BitVec.toNat_ne.2 (Nat.ne_of_gt hpos)
  have hvalue := asI32_discard hne hmax
  have hbytes := descriptorBytes_discard hne hmax
  exact ⟨hvalue, hbytes ▸ descriptorMeaning_of_neg (by omega), hbytes⟩

/-- Settles O41: minus such a noise is below 2^31, so that its sign bit is 0. -/
theorem longNoiseReadsAsAMessage : Obligations.LongNoiseReadsAsAMessage := by
  intro S noise hmin hmax
  have hne : noise ≠ 0 := BitVec.toNat_ne.2 (Nat.ne_of_gt (Nat.zero_lt_of_lt hmin))
  have hword : (discardDescriptor noise).toNat = 2 ^ 32 - noise.toNat := toNat_neg32 hne
  have hvalue : asI32 (discardDescriptor noise) = (discardDescriptor noise).toNat := asI32_of_lt (by omega)
  exact ⟨hword, by omega, by omega, hword ▸ descriptorMeaning_eq_message (by omega) (by omega)⟩

/-! ## No flow control -/

/-- What an operation makes of FDET, and emits, is settled by the parameters and the registers. -/
theorem exec_fdet_out_congr {i : Instr} {s u t : State} (hcfg : s.cfg = u.cfg) (hfdet : s.fdet = u.fdet)
    (h : exec i s = .next t) : ∃ v, exec i u = .next v ∧ v.fdet = t.fdet ∧ v.out = t.out := by
  rcases exec_next_cases h with ⟨rfl, hop | hop⟩ | ⟨rfl, hop⟩ | ⟨b, ⟨rfl, rfl⟩ | ⟨rfl, rfl⟩ | ⟨rfl, rfl⟩⟩
  · exact ⟨_, exec_of_operation_reset u hop, by simp [hcfg], rfl⟩
  · exact ⟨_, exec_of_operation_flush u hop, by simp [hcfg], rfl⟩
  · exact ⟨_, exec_of_operation_idle u hop, hfdet.symm, rfl⟩
  · exact ⟨_, exec_pushLfs b u, by simp [hcfg, hfdet], by simp [hcfg, hfdet]⟩
  · exact ⟨_, exec_pushWfh b u, by simp [hcfg, hfdet], by simp [hcfg, hfdet]⟩
  · exact ⟨_, exec_pushWfb b u, by simp [hcfg, hfdet], by simp [hcfg, hfdet]⟩

/-- A full DQ loses what it is offered (43 R196). -/
theorem offer_of_full {depth : Nat} {dq : List Word} (out : Option Word) (h : depth ≤ dq.length) :
    offer depth dq out = dq := by
  cases out with
  | none => rfl
  | some d => exact if_neg h.not_gt

/-- Settles O42: a cycle that emits is a PUSH, which clears no channel. -/
theorem fdetDependsOnNothingOutside : Obligations.FdetDependsOnNothingOutside := by
  intro iv s u t hcfg hfdet h
  refine ⟨?_, fun hemits hfull => ?_⟩
  · rw [clockCycle, ← hfdet]
    exact exec_fdet_out_congr hcfg hfdet h
  · have hpush : (decode s.fdet.phase iv).operation = .push :=
      by_contra fun hne => hemits (exec_out_of_not_push h hne)
    exact (exec_dq h (by simp [hpush]) (by simp [hpush])).trans (offer_of_full t.out hfull)

end Sys2Proof.Machine
end

section
/-! SUPPORT. The environment (spec/43_environment.md): the ByteChannel as a queue of unread bytes (R191 to R194, R199), the
turns of the consumer one by one (R197, R201 to R206), and how long a call of `next` can last (R197). They settle O9, O10,
O44 to O49 and O58. -/

namespace Sys2Proof.Machine

/-! ## The unread bytes -/

section Unread
variable {capacity : Nat} {ch : ByteChannel}

/-- An append leaves the bytes that stay unread in place and puts its own behind them. -/
theorem contents_append_of_cursor (b : Byte) (hc : isPowerOfTwo capacity = true) (hle : (ch.append capacity b).rd ≤ ch.wr)
    (hlt : ch.wr - (ch.append capacity b).rd < capacity) :
    (ch.append capacity b).contents capacity =
      ch.bytesFrom capacity (ch.append capacity b).rd (ch.wr - (ch.append capacity b).rd) ++ [b] := by
  have hcount : (ch.append capacity b).unread = ch.wr - (ch.append capacity b).rd + 1 := by
    rw [ByteChannel.unread, append_wr]
    omega
  rw [ByteChannel.contents, hcount, bytesFrom_add, bytesFrom_append b hc _ _ (by omega) hlt, Nat.add_sub_cancel' hle,
    bytesFrom_succ, byteAt_append_same, bytesFrom_zero]

theorem unread_append_of_room (b : Byte) (hi : ch.Inv capacity) (hroom : ch.unread < capacity) :
    (ch.append capacity b).unread = ch.unread + 1 := by
  obtain ⟨hle, -⟩ := hi
  simp only [ByteChannel.unread] at hroom ⊢
  rw [append_rd, if_neg (by omega), append_wr]
  omega

theorem contents_append_of_room (b : Byte) (hc : isPowerOfTwo capacity = true) (hi : ch.Inv capacity)
    (hroom : ch.unread < capacity) : (ch.append capacity b).contents capacity = ch.contents capacity ++ [b] := by
  obtain ⟨hle, -⟩ := hi
  simp only [ByteChannel.unread] at hroom
  have hrd : (ch.append capacity b).rd = ch.rd := by rw [append_rd, if_neg (by omega)]
  have happend := contents_append_of_cursor b hc (hrd ▸ hle) (hrd ▸ hroom)
  rwa [hrd] at happend

/-- Overwrite on full (43 R192). -/
theorem contents_append_of_full (b : Byte) (hc : isPowerOfTwo capacity = true) (hi : ch.Inv capacity)
    (hfull : ch.unread = capacity) : (ch.append capacity b).contents capacity = (ch.contents capacity).drop 1 ++ [b] := by
  obtain ⟨hle, -⟩ := hi
  have hpos := powerOfTwo_pos hc
  rw [ByteChannel.unread] at hfull
  have hcount : ch.unread = ch.wr - (ch.rd + 1) + 1 := by
    rw [ByteChannel.unread]
    omega
  have hrd : (ch.append capacity b).rd = ch.rd + 1 := by
    rw [append_rd, if_pos (by omega)]
    omega
  have happend := contents_append_of_cursor (ch := ch) b hc (by omega) (by omega)
  rw [happend, hrd, ByteChannel.contents, hcount, bytesFrom_succ, List.drop_succ_cons, List.drop_zero]

/-- The cursor's move changes no stored byte. -/
theorem bytesFrom_advance (ch : ByteChannel) (k x n : Nat) :
    (ch.advance k).bytesFrom capacity x n = ch.bytesFrom capacity x n := by
  induction n generalizing x with
  | zero => rfl
  | succ n ih => rw [bytesFrom_succ, bytesFrom_succ, ih]; rfl

/-- The unread bytes, cut at the n a read or a discard takes. -/
theorem contents_eq_append {n : Nat} (hn : n ≤ ch.unread) :
    ch.contents capacity = ch.bytesFrom capacity ch.rd n ++ (ch.advance n).contents capacity := by
  have hcount : (ch.advance n).unread = ch.unread - n := by
    rw [ByteChannel.unread, advance_wr, advance_rd, Nat.sub_add_eq, ByteChannel.unread]
  rw [ByteChannel.contents, ByteChannel.contents, bytesFrom_advance, hcount, advance_rd, ← bytesFrom_add,
    Nat.add_sub_cancel' hn]

theorem bytesFrom_eq_take {n : Nat} (hn : n ≤ ch.unread) :
    ch.bytesFrom capacity ch.rd n = (ch.contents capacity).take n := by
  rw [contents_eq_append hn, List.take_left' (length_bytesFrom _ _ _ _)]

theorem contents_advance {n : Nat} (hn : n ≤ ch.unread) :
    (ch.advance n).contents capacity = (ch.contents capacity).drop n := by
  rw [contents_eq_append hn, List.drop_left' (length_bytesFrom _ _ _ _)]

end Unread

/-- Settles O44: an append with room, and one on a full channel. -/
theorem appendOverwritesTheOldestWhenFull : Obligations.AppendOverwritesTheOldestWhenFull := by
  intro capacity ch b hpow hi
  have hc := isPowerOfTwo_iff.2 hpow
  have ⟨_, hmax, _⟩ := hi
  split
  · rename_i hroom
    exact contents_append_of_room b hc hi hroom
  · rename_i hfull
    exact contents_append_of_full b hc hi (Nat.le_antisymm hmax (Nat.not_lt.1 hfull))

/-- Every branch of a PUSH appends its byte (43 R199). -/
theorem exec_pushBranch_bc {p : Phase} {b : Byte} {s t : State} (h : exec (pushBranch p b) s = .next t) :
    t.bc = s.bc.append s.cfg.capacity b := by
  cases p <;> cases h <;> rfl

/-- Settles O58, push by push: each byte fits, so it comes behind the others. -/
theorem pushedBytesAreStoredInOrder : Obligations.PushedBytesAreStoredInOrder := by
  intro bs
  induction bs with
  | nil =>
    intro s t ds _ _ hrun _
    cases hrun
    exact (List.append_nil _).symm
  | cons b bs ih =>
    intro s t ds hl hi hrun hfit
    obtain ⟨u, es, hcycle, hrest, -⟩ := runCycles_cons_some hrun
    rw [clockCycle_push] at hcycle
    obtain ⟨hcfg, -⟩ := exec_keeps_environment hcycle
    have hbc := exec_pushBranch_bc hcycle
    have hc := legal_capacity hl
    rw [List.length_cons] at hfit
    have hroom : s.bc.unread < s.cfg.capacity := by omega
    have hfit' : u.bc.unread + bs.length ≤ s.cfg.capacity := by
      rw [hbc, unread_append_of_room b hi hroom]
      omega
    have htail := ih u t es (hcfg ▸ hl) (by rw [hcfg, hbc]; exact append_inv b hc hi) hrest (hcfg ▸ hfit')
    rw [hcfg, hbc, contents_append_of_room b hc hi hroom] at htail
    rw [htail, List.append_assoc, List.singleton_append]

/-! ## The turns of the consumer -/

/-- Settles O45: each place of the consumer before it holds a descriptor. -/
theorem dequeueTakesTheHeadOrTimesOut : Obligations.DequeueTakesTheHeadOrTimesOut := by
  intro s late
  refine ⟨fun cap rest hr hcalls => ?_, fun hr hcalls => ?_, fun cap d rest hr hdq => ?_, fun cap hr hdq => ?_⟩
  · simp only [consumerTurn, hr, enterNext, hcalls]
  · simp only [consumerTurn, hr, enterNext, hcalls]
  · simp only [consumerTurn, hr, dequeueOrTimeout, hdq]
  · simp only [consumerTurn, hr, dequeueOrTimeout, hdq]

section ConsumerTurn
variable (late : Bool) {s : State} {cap : Nat} {d : Word}

theorem consumerTurn_underrun (hr : s.reader = .holding cap d) (hu : s.bc.unread < descriptorBytes d) :
    consumerTurn late s = .fault (.envUnderrun (descriptorBytes d) s.bc.unread) := by
  simp only [consumerTurn, hr, finishDescriptor, if_pos hu]

theorem consumerTurn_discard (hr : s.reader = .holding cap d) (hu : descriptorBytes d ≤ s.bc.unread)
    (hd : discards cap d = true) :
    consumerTurn late s = .next { s with bc := s.bc.advance (descriptorBytes d), reader := .waiting cap } := by
  simp only [consumerTurn, hr, finishDescriptor, if_neg hu.not_gt, if_pos hd]

theorem consumerTurn_deliver (hr : s.reader = .holding cap d) (hu : descriptorBytes d ≤ s.bc.unread)
    (hd : discards cap d = false) :
    consumerTurn late s = .next { s with
      bc     := s.bc.advance (descriptorBytes d)
      reader := .idle
      ret    := some (descriptorBytes d)
      buf    := s.bc.bytesFrom s.cfg.capacity s.bc.rd (descriptorBytes d) } := by
  simp only [consumerTurn, hr, finishDescriptor, if_neg hu.not_gt, hd, Bool.false_eq_true, if_false]

end ConsumerTurn

section Descriptor
variable {cap : Nat} {d : Word}

theorem discards_iff : discards cap d = true ↔ asI32 d < 0 ∨ (cap : Int) < asI32 d := by
  simp [discards]

theorem discards_eq_false_iff : discards cap d = false ↔ 0 ≤ asI32 d ∧ asI32 d ≤ (cap : Int) := by
  simp [discards]

theorem descriptorBytes_of_nonneg (h : 0 ≤ asI32 d) : descriptorBytes d = (asI32 d).toNat := by
  rw [descriptorBytes]
  omega

theorem descriptorBytes_pos (h : d ≠ 0#32) : 0 < descriptorBytes d := by
  have hne : asI32 d ≠ 0 := fun hz => h (BitVec.toInt_inj.1 hz)
  exact Int.natAbs_pos.2 hne

theorem descriptorBytes_le_of_not_discards (h : discards cap d = false) : descriptorBytes d ≤ cap := by
  obtain ⟨hnonneg, hcap⟩ := discards_eq_false_iff.1 h
  rw [descriptorBytes_of_nonneg hnonneg]
  omega

end Descriptor

/-- Settles O48: the branch of the underrun. -/
theorem underrunIsAnEnvironmentFault : Obligations.UnderrunIsAnEnvironmentFault :=
  fun _ late _ _ hr hu => ⟨consumerTurn_underrun late hr hu, rfl⟩

/-- Settles O46: the branch of the discard, whose cursor's move drops the bytes. -/
theorem consumerDiscardsNoiseAndOversize : Obligations.ConsumerDiscardsNoiseAndOversize :=
  fun _ late _ _ hr hd hu => ⟨_, consumerTurn_discard late hr hu (discards_iff.2 hd), rfl, rfl, rfl, rfl, rfl, rfl, rfl, rfl,
    rfl, rfl, contents_advance hu⟩

/-- Settles O47: the branch of the delivery, which takes the bytes the cursor's move drops. -/
theorem consumerDeliversTheOldestBytes : Obligations.ConsumerDeliversTheOldestBytes := by
  intro s late cap d hr hpos hcap hu
  have hturn := consumerTurn_deliver late hr (d := d) (cap := cap)
  rw [descriptorBytes_of_nonneg hpos.le] at hturn
  exact ⟨_, hturn hu (discards_eq_false_iff.2 ⟨hpos.le, hcap⟩), rfl, rfl, bytesFrom_eq_take hu, length_bytesFrom _ _ _ _,
    contents_advance hu, rfl, rfl, rfl, rfl, rfl, rfl, rfl⟩

/-- Settles O49: a turn on a held descriptor that goes on is a discard or a delivery. -/
theorem nextNeverReturnsMoreThanCap : Obligations.NextNeverReturnsMoreThanCap := by
  intro s t late cap d hr h
  have hu : descriptorBytes d ≤ s.bc.unread := by
    by_contra hover
    rw [consumerTurn_underrun late hr (Nat.not_le.1 hover)] at h
    cases h
  cases hd : discards cap d with
  | true =>
    rw [consumerTurn_discard late hr hu hd] at h
    cases h
    exact .inl ⟨rfl, rfl, rfl⟩
  | false =>
    rw [consumerTurn_deliver late hr hu hd] at h
    cases h
    exact .inr ⟨rfl, _, descriptorBytes_le_of_not_discards hd, rfl, length_bytesFrom _ _ _ _, descriptorBytes_pos⟩

/-- What a turn of the consumer leaves alone beside the parameters and FDET. -/
theorem consumerTurn_frame {late : Bool} {s t : State} (h : consumerTurn late s = .next t) :
    t.out = s.out ∧ t.bc.wr = s.bc.wr ∧ t.bc.mem = s.bc.mem ∧ t.turns = s.turns := by
  rcases consumerTurn_next_cases h with rfl | ⟨_, _, _, _, rfl⟩ | ⟨_, _, _, _, _, rfl⟩ | ⟨_, _, _, _, rfl⟩ |
    ⟨_, _, _, _, _, rfl⟩ | ⟨_, _, _, _, _, rfl⟩ <;> exact ⟨rfl, rfl, rfl, rfl⟩

/-- Settles O10: a scheduled consumer turn, and the frame of a turn. -/
theorem consumerTurnLeavesFdetAlone : Obligations.ConsumerTurnLeavesFdetAlone := by
  intro s t late rest hl hturns
  have hstep := step_consumer hl hturns
  refine ⟨hstep, fun h => ?_⟩
  rw [hstep] at h
  have hcfg := consumerTurn_keeps_cfg h
  have hfdet := consumerTurn_keeps_fdet h
  exact ⟨hcfg, hfdet, consumerTurn_frame h⟩

/-! ## Runs that come to an end -/

/-- Within k steps the machine stands in a state with the property P. -/
def ReachesWithin (k : Nat) (P : State → Prop) (s : State) : Prop := ∃ n ≤ k, ∃ t, runSteps n s = some t ∧ P t

section Reaches
variable {k : Nat} {P : State → Prop} {s t : State}

theorem reachesWithin_of_now (h : P s) : ReachesWithin k P s := ⟨0, k.zero_le, s, rfl, h⟩

theorem reachesWithin_of_step (hstep : step s = .next t) (h : ReachesWithin k P t) : ReachesWithin (k + 1) P s := by
  obtain ⟨n, hn, u, hrun, hu⟩ := h
  exact ⟨n + 1, Nat.succ_le_succ hn, u, (runSteps_succ hstep).trans hrun, hu⟩

end Reaches

/-! ## Every call ends -/

/-- The call under way has returned, or the consumer stands at the underrun of 43 R205. -/
def CallOver (t : State) : Prop :=
  (t.reader = .idle ∧ t.ret.isSome = true) ∨ ∃ requested, step t = .fault (.envUnderrun requested t.bc.unread)

/-- An operation of the phase goes on in every phase but the reserved one. -/
theorem clockCycle_goes_on (iv : InputVec) {s : State} (h : s.fdet.phase ≠ .rsv) : ∃ t, clockCycle iv s = .next t := by
  have hw := decode_wfIn s.fdet.phase iv
  unfold clockCycle
  cases hi : decode s.fdet.phase iv with
  | pushRsv b => exact absurd (by simpa [hi, Instr.wfIn] using hw) h
  | _ => exact ⟨_, rfl⟩

theorem exec_dq_length_le {i : Instr} {s t : State} (h : exec i s = .next t) : t.dq.length ≤ s.dq.length + 1 := by
  rcases exec_next_cases h with ⟨rfl, -⟩ | ⟨rfl, -⟩ | ⟨b, ⟨-, rfl⟩ | ⟨-, rfl⟩ | ⟨-, rfl⟩⟩
  · simp
  · simp
  all_goals exact offer_length_le _ _ _

/-- A turn of the consumer inside a call underruns, or returns, or takes a descriptor from DQ or from its hand, or waits
on, for which its deadline must not have passed. -/
theorem consumerTurn_inside_call (late : Bool) {s : State} (hr : s.reader ≠ .idle) :
    (∃ requested, consumerTurn late s = .fault (.envUnderrun requested s.bc.unread)) ∨
    ∃ t, consumerTurn late s = .next t ∧ (t.reader = .idle → t.ret.isSome = true) ∧
      (callBudget t < callBudget s ∨ t = s ∧ late = false) := by
  obtain ⟨-, -, hhead, hempty⟩ := dequeueTakesTheHeadOrTimesOut s late
  cases hreader : s.reader with
  | idle => exact absurd hreader hr
  | waiting cap =>
    right
    cases hdq : s.dq with
    | cons d rest => exact ⟨_, hhead cap d rest hreader hdq, by simp, .inl (by simp [callBudget, hreader, hdq]; omega)⟩
    | nil =>
      refine ⟨_, hempty cap hreader hdq, ?_⟩
      cases late with
      | true => exact ⟨fun _ => rfl, .inl (by simp [callBudget, hreader, hdq])⟩
      | false => exact ⟨fun hidle => absurd hidle hr, .inr ⟨rfl, rfl⟩⟩
  | holding cap d =>
    by_cases hu : s.bc.unread < descriptorBytes d
    · exact .inl ⟨_, consumerTurn_underrun late hreader hu⟩
    · right
      cases hd : discards cap d with
      | true =>
        exact ⟨_, consumerTurn_discard late hreader (Nat.not_lt.1 hu) hd, by simp, .inl (by simp [callBudget, hreader])⟩
      | false =>
        exact ⟨_, consumerTurn_deliver late hreader (Nat.not_lt.1 hu) hd, fun _ => rfl, .inl (by simp [callBudget, hreader])⟩

/-- A step inside a call underruns, or goes on and spends some of the call's budget. -/
theorem step_inside_call {s : State} (hs : s.Inv) (hr : s.reader ≠ .idle) :
    (∃ requested, step s = .fault (.envUnderrun requested s.bc.unread)) ∨
    ∃ t, step s = .next t ∧ (t.reader = .idle → t.ret.isSome = true) ∧ callBudget t < callBudget s := by
  have ⟨hl, ⟨_, hphase, _⟩, _⟩ := hs
  cases hturns : s.turns with
  | nil =>
    rw [step_unscheduled_call hl hturns hr]
    rcases consumerTurn_inside_call true hr with hfault | ⟨t, hturn, hret, hbudget | ⟨-, hlate⟩⟩
    · exact .inl hfault
    · exact .inr ⟨t, hturn, hret, hbudget⟩
    · cases hlate
  | cons turn rest =>
    have hspent : callBudget { s with turns := rest } + 3 = callBudget s := by
      simp only [callBudget, hturns, List.length_cons]
      omega
    cases turn with
    | clock iv =>
      right
      rw [step_clock hl hturns]
      obtain ⟨t, hcycle⟩ := clockCycle_goes_on iv (s := { s with turns := rest }) hphase
      obtain ⟨-, hreader, -, -, -, hrest⟩ := exec_keeps_environment hcycle
      have hqueued := exec_dq_length_le hcycle
      refine ⟨t, hcycle, fun hidle => absurd (hreader.symm.trans hidle) hr, ?_⟩
      simp only [callBudget, hreader, hrest] at hspent hqueued ⊢
      omega
    | consumer late =>
      rw [step_consumer hl hturns]
      rcases consumerTurn_inside_call late (s := { s with turns := rest }) hr with
        hfault | ⟨t, hturn, hret, hbudget | ⟨rfl, -⟩⟩
      · exact .inl hfault
      · exact .inr ⟨t, hturn, hret, by omega⟩
      · exact .inr ⟨_, hturn, hret, by omega⟩

/-- So a call ends before its budget does. -/
theorem call_ends_within_budget {k : Nat} {s : State} (hs : s.Inv) (hr : s.reader ≠ .idle) (hk : callBudget s ≤ k) :
    ReachesWithin k CallOver s := by
  induction k generalizing s with
  | zero =>
    rcases step_inside_call hs hr with hfault | ⟨t, -, -, hbudget⟩
    · exact reachesWithin_of_now (.inr hfault)
    · omega
  | succ k ih =>
    rcases step_inside_call hs hr with hfault | ⟨t, hstep, hret, hbudget⟩
    · exact reachesWithin_of_now (.inr hfault)
    · refine reachesWithin_of_step hstep ?_
      by_cases hidle : t.reader = .idle
      · exact reachesWithin_of_now (.inl ⟨hidle, hret hidle⟩)
      · exact ih (stepKeepsTheInvariant s t hs hstep) hidle (by omega)

/-! ## A wait without a push -/

/-- 30 R74 reads no phase. -/
theorem operation_decode_congr (p q : Phase) (iv : InputVec) : (decode p iv).operation = (decode q iv).operation := by
  obtain ⟨r, hr, hop⟩ := exists_row_of_operation (decode p iv).operation
  exact hop.symm.trans ((matchesVec_iff_operation hr q iv).1 ((matchesVec_iff_operation hr p iv).2 hop))

/-- An operation other than PUSH goes on and queues nothing. -/
theorem exec_of_not_push {i : Instr} {s : State} (hi : i.operation ≠ .push) (hdq : s.dq = []) :
    ∃ t, exec i s = .next t ∧ t.dq = [] := by
  cases hop : i.operation with
  | reset => exact ⟨_, exec_of_operation_reset s hop, rfl⟩
  | flush => exact ⟨_, exec_of_operation_flush s hop, rfl⟩
  | push => exact absurd hop hi
  | idle => exact ⟨_, exec_of_operation_idle s hop, hdq⟩

/-- The wait ends at the first turn of the consumer whose deadline has passed, at the latest after the schedule. -/
theorem wait_without_push_times_out (turns : List Turn) {s : State} {cap : Nat} (hturns : s.turns = turns)
    (hl : s.cfg.legal = true) (hr : s.reader = .waiting cap) (hdq : s.dq = [])
    (hnopush : ∀ iv, .clock iv ∈ turns → (decode .lfs iv).operation ≠ .push) :
    ReachesWithin (turns.length + 1) (fun t => t.reader = .idle ∧ t.ret = some 0) s := by
  induction turns generalizing s with
  | nil =>
    obtain ⟨-, -, -, hempty⟩ := dequeueTakesTheHeadOrTimesOut s true
    have hstep := (step_unscheduled_call hl hturns (by simp [hr])).trans (hempty cap hr hdq)
    exact reachesWithin_of_step hstep (reachesWithin_of_now ⟨rfl, rfl⟩)
  | cons turn rest ih =>
    have hnopush' : ∀ iv, .clock iv ∈ rest → (decode .lfs iv).operation ≠ .push :=
      fun iv hmem => hnopush iv (List.mem_cons_of_mem _ hmem)
    cases turn with
    | clock iv =>
      have hop := operation_decode_congr s.fdet.phase .lfs iv ▸ hnopush iv List.mem_cons_self
      obtain ⟨t, hcycle, hdq'⟩ := exec_of_not_push (s := { s with turns := rest }) hop hdq
      obtain ⟨hcfg, hreader, -, -, -, hrest⟩ := exec_keeps_environment hcycle
      exact reachesWithin_of_step ((step_clock hl hturns).trans hcycle)
        (ih hrest (hcfg ▸ hl) (hreader.trans hr) hdq' hnopush')
    | consumer late =>
      obtain ⟨-, -, -, hempty⟩ := dequeueTakesTheHeadOrTimesOut { s with turns := rest } late
      have hstep := (step_consumer hl hturns).trans (hempty cap hr hdq)
      cases late with
      | true => exact reachesWithin_of_step hstep (reachesWithin_of_now ⟨rfl, rfl⟩)
      | false => exact reachesWithin_of_step hstep (ih rfl hl hr hdq hnopush')

/-- Settles O9: the unscheduled step, the budget of a call, and the wait without a push. -/
theorem noWaitLastsForEver : Obligations.NoWaitLastsForEver :=
  ⟨fun _ hl hturns => ⟨step_unscheduled_idle hl hturns, step_unscheduled_call hl hturns⟩,
    fun _ hs hr => call_ends_within_budget hs hr le_rfl,
    fun s _ hl hr hdq hnopush => wait_without_push_times_out s.turns rfl hl hr hdq hnopush⟩

end Sys2Proof.Machine
end

section
/-! SUPPORT. What can stop a machine of the invariant (spec/60_exceptions.md R220): the consumer's underrun and nothing else.
It settles O53. -/

namespace Sys2Proof.Machine

/-- Settles O53: with the phase not reserved a clock cycle goes on, and a turn of the consumer goes on or underruns. -/
theorem onlyTheConsumerCanStopTheMachine : Obligations.OnlyTheConsumerCanStopTheMachine := by
  intro s hs
  have ⟨hl, ⟨_, hphase, _⟩, _⟩ := hs
  cases hturns : s.turns with
  | nil =>
    by_cases hidle : s.reader = .idle
    · exact .inl ⟨_, step_unscheduled_idle hl hturns hidle⟩
    · rw [step_unscheduled_call hl hturns hidle]
      rcases consumerTurn_total true s with hnext | ⟨cap, d, hr, hu, hfault⟩
      · exact .inl hnext
      · exact .inr ⟨cap, d, hr, .inl rfl, hfault, hu⟩
  | cons turn rest =>
    cases turn with
    | clock iv =>
      rw [step_clock hl hturns]
      exact .inl (clockCycle_goes_on iv (s := { s with turns := rest }) hphase)
    | consumer late =>
      rw [step_consumer hl hturns]
      rcases consumerTurn_total late { s with turns := rest } with hnext | ⟨cap, d, hr, hu, hfault⟩
      · exact .inl hnext
      · exact .inr ⟨cap, d, hr, .inr ⟨late, rest, rfl⟩, hfault, hu⟩

end Sys2Proof.Machine
end

section
/-! SUPPORT. The launch state and the clear (spec/70_reset_and_hazards.md R240, R241, R244). It settles O15 and O50. -/

namespace Sys2Proof.Machine

/-- Settles O15: both operations are the system's clear, and decode looks at `rst` first (30 R74). -/
theorem resetAndFlushLeaveTheSameState : Obligations.ResetAndFlushLeaveTheSameState :=
  ⟨fun s f v w b c =>
      ⟨systemClear s, exec_reset f v b s, exec_flush w c s, systemClear_dq s, bcReset_wr s.bc, bcReset_rd s.bc⟩,
    fun p v b => congrArg Instr.operation (decode_resetVector p true v b)⟩

/-! ## The launch state -/

section Launch
variable (cfg : Config)

@[simp] theorem launch_cfg : (State.launch cfg).cfg = cfg := rfl
@[simp] theorem launch_fdet : (State.launch cfg).fdet = Fdet.atReset cfg.winDepth := rfl
@[simp] theorem launch_bc : (State.launch cfg).bc = ByteChannel.empty 0 := rfl
@[simp] theorem launch_dq : (State.launch cfg).dq = [] := rfl
@[simp] theorem launch_out : (State.launch cfg).out = none := rfl

end Launch

@[simp] theorem empty_wr (epoch : Nat) : (ByteChannel.empty epoch).wr = 0 := rfl

/-- A channel without appends is within its bounds, whatever its count of resets. -/
theorem empty_inv (capacity epoch : Nat) : (ByteChannel.empty epoch).Inv capacity := by
  simp [ByteChannel.Inv, ByteChannel.empty, Memory.wf]

theorem launch_inv {cfg : Config} (hl : cfg.legal = true) : (State.launch cfg).Inv := by
  have hfdet : (State.launch cfg).fdet.Inv cfg := atReset_inv cfg
  have hbc : (State.launch cfg).bc.Inv cfg.capacity := empty_inv cfg.capacity 0
  exact ⟨hl, hfdet, hbc, by simp, by simp, by simp, rfl⟩

/-- Nothing has been appended and the window is 0x00 throughout, whether the configuration is legal or not. -/
theorem launch_lookBack (cfg : Config) : (State.launch cfg).LookBack := by
  intro i _
  refine ⟨fun happended => ?_, fun _ => ?_⟩
  · simp at happended
  · simp

theorem default_legal : Config.default.legal = true := by decide

/-- Settles O50: `State.reset` is the launch of the default configuration, which is legal. -/
theorem launchMeetsTheInvariant : Obligations.LaunchMeetsTheInvariant :=
  ⟨fun cfg hl => ⟨launch_inv hl, launch_lookBack cfg⟩, launch_inv default_legal, launch_lookBack Config.default⟩

end Sys2Proof.Machine
end
